-- ==== Sys2Proof/Word.lean ====
section
/-! DEFINITION. The word types of the VGA timing block: a counter, a latch or a ROM entry is one byte (R6), a ROM
address is 16 bits (R31). -/

namespace Sys2Proof

/-- Eight bits: a counter value, a control word, a ROM entry (R6). -/
abbrev Byte := BitVec 8

/-- A ROM address, `A[15:0]` (R30, R31). -/
abbrev Addr := BitVec 16

/-- How many addresses the one address space has (R30). -/
abbrev romSize : Nat := 65536

end Sys2Proof
end

