-- ==== Sys2Proof/Config.lean ====
section
/-! DEFINITION. The configuration record `Cfg` of R7 (timing boundaries, bit layout, revision policies), the ten
signals of R46, the reference layout of R49, the scenario of 95_test_vectors.md, and the free values of the model. -/

namespace Sys2Proof

/-- The ten signal names of R46, in the order of its table. -/
inductive Signal where
  | hsyncN | vsyncN | hblank | vblank | hresetN | vresetN | display | blankStart | blankEnd | vblankPulse
  deriving DecidableEq, Repr

/-- Every signal, in the order of R46. -/
def Signal.all : List Signal :=
  [.hsyncN, .vsyncN, .hblank, .vblank, .hresetN, .vresetN, .display, .blankStart, .blankEnd, .vblankPulse]

/-- The polarity column of R46: the four `_N` signals are active-low. -/
def Signal.activeLow : Signal → Bool
  | .hsyncN => true
  | .vsyncN => true
  | .hresetN => true
  | .vresetN => true
  | .hblank => false
  | .vblank => false
  | .display => false
  | .blankStart => false
  | .blankEnd => false
  | .vblankPulse => false

/-- The three strobe signals that clause (g) of R8 counts. -/
def Signal.strobes : List Signal := [.blankStart, .blankEnd, .vblankPulse]

/-- `LAYOUT` (R48): for each signal the latch bit that carries it, `none` for an absent signal. The map is plain data;
that it is injective is clause (e) of R8, checked in WellFormed. -/
structure Layout where
  hsyncN : Option (Fin 8)
  vsyncN : Option (Fin 8)
  hblank : Option (Fin 8)
  vblank : Option (Fin 8)
  hresetN : Option (Fin 8)
  vresetN : Option (Fin 8)
  display : Option (Fin 8)
  blankStart : Option (Fin 8)
  blankEnd : Option (Fin 8)
  vblankPulse : Option (Fin 8)
  deriving DecidableEq, Repr

/-- `LAYOUT(sig)` (R48). -/
def Layout.pos (lay : Layout) : Signal → Option (Fin 8)
  | .hsyncN => lay.hsyncN
  | .vsyncN => lay.vsyncN
  | .hblank => lay.hblank
  | .vblank => lay.vblank
  | .hresetN => lay.hresetN
  | .vresetN => lay.vresetN
  | .display => lay.display
  | .blankStart => lay.blankStart
  | .blankEnd => lay.blankEnd
  | .vblankPulse => lay.vblankPulse

/-- The signal is present: a bit carries it (R48). -/
def Layout.present (lay : Layout) (sig : Signal) : Bool := (lay.pos sig).isSome

/-- The reference layout `REF` of R49. The model takes the layout as a parameter; `REF` serves the opcode table, the
examples and the reset state's configuration only (log entries 2 and 3). -/
def Layout.ref : Layout where
  hsyncN := some 0
  vsyncN := some 1
  hblank := some 2
  vblank := some 3
  hresetN := some 4
  vresetN := some 5
  display := some 6
  blankStart := some 7
  blankEnd := none
  vblankPulse := none

/-- `HRESET_POLICY` (R7). `unlisted` stands for any value that R7 does not list, so that clause (h) of R8 can be
stated and refused; no machine has it (log entry 8). -/
inductive HResetPolicy where
  | exact
  | tail
  | unlisted (name : String)
  deriving DecidableEq, Repr

/-- `FILLER_POLICY` (R7). `unlisted` as in `HResetPolicy`. -/
inductive FillerPolicy where
  | singlePulse
  | perLine
  | sustained
  | unlisted (name : String)
  deriving DecidableEq, Repr

/-- The configuration record of R7, field for field. -/
structure Cfg where
  hbiStart : Nat
  hsyStart : Nat
  hsyEnd : Nat
  hbiEnd : Nat
  vbiStart : Nat
  vsyStart : Nat
  vsyEnd : Nat
  vbiEnd : Nat
  irqRecovery : Nat
  layout : Layout
  hresetPolicy : HResetPolicy
  fillerPolicy : FillerPolicy
  vpulseWidth : Nat
  deriving DecidableEq, Repr

/-- The scenario of R7's table and 95_test_vectors.md: the boundaries, the default policies `EXACT` and `SINGLE_PULSE`,
no vertical-blank pulse, the layout `REF`. `IRQ_RECOVERY = 6` is the examples' value; the source gives none (D12). -/
def Config.scenario : Cfg where
  hbiStart := 100
  hsyStart := 105
  hsyEnd := 121
  hbiEnd := 132
  vbiStart := 216
  vsyStart := 217
  vsyEnd := 221
  vbiEnd := 244
  irqRecovery := 6
  layout := Layout.ref
  hresetPolicy := .exact
  fillerPolicy := .singlePulse
  vpulseWidth := 0

/-- FREE VALUE (R51: for an absent signal `w.SIG` is undefined): what a byte reads as at a signal that the layout does
not map. Nothing constrains it. A valid layout maps both signals that a step reads, so no step of a valid machine
depends on it (log entry 5; safe). -/
opaque Config.absentBit : Signal → Byte → Bool

/-- FREE VALUE (R100: the error records one clause, and the spec does not say which where several fail): which of the
failing clauses `ConfigurationError` names, as an index counted modulo how many fail (log entry 7; safe). -/
opaque Config.reportedClause : Cfg → Nat

/-- The open parameter `F_CLK` of R7 and R128, in Hz: named by the spec, read by no rule (log entry 12; safe). -/
opaque Config.fClk : Nat

end Sys2Proof
end

