-- ==== Sys2Proof/Syntax.lean ====
section
/-! DEFINITION. The four counter operations of R54 (the rows of spec/opcode_table.json) and the signal record, which
is a control word before it is packed (R45, R46, R62). -/

namespace Sys2Proof

/-- The four counter operations (R54). They have no operands: the word's other bits are outputs, and they stay in the
latch (R53). -/
inductive Instr where
  /-- `COUNT` (R92): both reset bits of the latch are 1. -/
  | count
  /-- `HCLR` (R93): `HRESET_N = 0`, `VRESET_N = 1`. -/
  | hclr
  /-- `VCLR` (R94): `HRESET_N = 1`, `VRESET_N = 0`. -/
  | vclr
  /-- `HVCLR` (R95): both reset bits of the latch are 0. -/
  | hvclr
  deriving DecidableEq, Repr

/-- The pair of reset bits that selects an operation, `HRESET_N` first (the table of R54). -/
def Instr.resetBits : Instr → Bool × Bool
  | .count => (true, true)
  | .hclr => (false, true)
  | .vclr => (true, false)
  | .hvclr => (false, false)

/-- A signal record: the value of each of the ten signals, present or not (R46, R62). -/
structure Signals where
  hsyncN : Bool
  vsyncN : Bool
  hblank : Bool
  vblank : Bool
  hresetN : Bool
  vresetN : Bool
  display : Bool
  blankStart : Bool
  blankEnd : Bool
  vblankPulse : Bool
  deriving DecidableEq, Repr

/-- `S.sig`. -/
def Signals.get (r : Signals) : Signal → Bool
  | .hsyncN => r.hsyncN
  | .vsyncN => r.vsyncN
  | .hblank => r.hblank
  | .vblank => r.vblank
  | .hresetN => r.hresetN
  | .vresetN => r.vresetN
  | .display => r.display
  | .blankStart => r.blankStart
  | .blankEnd => r.blankEnd
  | .vblankPulse => r.vblankPulse

/-- The record `IDLE` of R47. -/
def Signals.idle : Signals where
  hsyncN := true
  vsyncN := true
  hblank := false
  vblank := false
  hresetN := true
  vresetN := true
  display := false
  blankStart := false
  blankEnd := false
  vblankPulse := false

/-- The record with every signal 0, from which the filler rows start (R75). -/
def Signals.zero : Signals where
  hsyncN := false
  vsyncN := false
  hblank := false
  vblank := false
  hresetN := false
  vresetN := false
  display := false
  blankStart := false
  blankEnd := false
  vblankPulse := false

end Sys2Proof
end

