-- ==== Sys2Proof/WellFormed.lean ====
section
/-! DEFINITION. `ValidCfg` (R8, clauses (a) to (h)), and when an operation can be encoded under a layout. An operation
has no operand of its own, so all that can be ill-formed is the configuration and the layout. -/

namespace Sys2Proof

/-- The clauses of R8. -/
inductive Clause where
  | a | b | c | d | e | f | g | h
  deriving DecidableEq, Repr

/-- Every clause, in the order of R8. -/
def Clause.all : List Clause := [.a, .b, .c, .d, .e, .f, .g, .h]

/-- No two signals share a bit position (clause (e)). -/
def Layout.injective (lay : Layout) : Bool :=
  Signal.all.all fun s => Signal.all.all fun t =>
    decide (s = t) || decide (lay.pos s = none) || decide (lay.pos s ≠ lay.pos t)

/-- How many strobe signals the layout maps (clause (g)). -/
def Layout.strobeCount (lay : Layout) : Nat := (Signal.strobes.filter lay.present).length

/-- `HRESET_POLICY` takes one of its listed values (clause (h)). -/
def HResetPolicy.listed : HResetPolicy → Bool
  | .exact => true
  | .tail => true
  | .unlisted _ => false

/-- `FILLER_POLICY` takes one of its listed values (clause (h)). -/
def FillerPolicy.listed : FillerPolicy → Bool
  | .singlePulse => true
  | .perLine => true
  | .sustained => true
  | .unlisted _ => false

/-- Whether one clause of R8 holds. The differences of clauses (c) and (d) are written as sums, so that no subtraction
of naturals is cut off at 0. -/
def Cfg.holds (c : Cfg) : Clause → Bool
  | .a => decide (c.hbiStart < c.hsyStart ∧ c.hsyStart < c.hsyEnd ∧ c.hsyEnd < c.hbiEnd ∧ c.hbiEnd ≤ 256)
  | .b => decide (c.vbiStart < c.vsyStart ∧ c.vsyStart < c.vsyEnd ∧ c.vsyEnd < c.vbiEnd ∧ c.vbiEnd ≤ 256)
  | .c => decide (1 ≤ c.irqRecovery ∧ c.hsyEnd + c.irqRecovery ≤ c.hbiEnd)
  | .d => decide (c.vbiStart + c.vpulseWidth ≤ c.vbiEnd)
  | .e => c.layout.injective
  | .f => c.layout.present .hresetN && c.layout.present .vresetN
  | .g => decide (1 ≤ c.layout.strobeCount ∧ c.layout.strobeCount ≤ 2)
  | .h => c.hresetPolicy.listed && c.fillerPolicy.listed

/-- The clauses that fail, in the order of R8. -/
def Cfg.failedClauses (c : Cfg) : List Clause := Clause.all.filter fun k => !c.holds k

/-- `ValidCfg(Cfg)`: the conjunction of clauses (a) to (h) (R8). -/
def Cfg.valid (c : Cfg) : Bool := c.failedClauses.isEmpty

/-- A layout carries the counter-operation field (R53): both reset signals have a bit, and not the same one. Every
valid layout does, by clauses (e) and (f). -/
def Layout.carriesOp (lay : Layout) : Bool :=
  match lay.hresetN, lay.vresetN with
  | some p, some q => decide (p ≠ q)
  | _, _ => false

/-- An operation is well-formed under a layout when its field can be written into a word of it. -/
def Instr.wellFormed (lay : Layout) (_ : Instr) : Bool := lay.carriesOp

end Sys2Proof
end

