-- ==== Sys2Proof/Machine/State.lean ====
section
/-! DEFINITION. The machine's state: the three registers, the ROM, and the configuration that says which machine it is;
the reasons a step may not run. -/

namespace Sys2Proof.Machine

/-- The ROM's content as a list of cells: every address that is not listed reads as the image's byte
(`Machine.imageByte`), so the programmed image is the empty list. The canonical form is `Memory.wf` in Ops. -/
abbrev Memory := List Host.Cell

/-- The faults of a step: there is none. The running block has no exception, trap, fault or illegal state (R102), and
a model must not add one (R108). -/
inductive Fault where
  deriving DecidableEq, Repr

/-- Why a step is refused. -/
inductive Refusal where
  /-- Raised by a dispatch arm of an instruction with no meaning yet; no arm of this model raises it. Safe. -/
  | notModelled (mnemonic : String)
  /-- `ConfigurationError(clause)` (R100): raised by the table writer before any byte is emitted, by loading, by building
  a machine, and by the step of a state whose configuration is not valid. It names one clause of R8 that fails. There is
  no image and no machine for such a configuration. Safe. -/
  | configurationError (clause : Clause)
  /-- `WriteError` (R101): raised by loading a sequence of bytes that is not exactly 65536 bytes long; the ROM is not
  programmed from it. Safe. -/
  | writeError
  /-- A ROM that is not the table (R101) or was changed (R44): raised by the step of a state whose ROM does not hold the
  table at every address. The spec asks the model to refuse that machine. Safe. -/
  | romNotImage
  deriving DecidableEq, Repr

/-- The state. `cfg` is the parameter that says which machine this is (R24): no step writes it. `rom` is constant too
(R20, R40). `h`, `v` and `l` are the block's only registers (R21). -/
structure State where
  /-- The configuration (R7): a parameter of the machine, held here because the host's step takes a state alone
  (log entry 1). -/
  cfg : Cfg
  /-- The ROM (R20). -/
  rom : Memory
  /-- `H`, the horizontal counter (R16). -/
  h : Byte
  /-- `V`, the vertical counter (R17). -/
  v : Byte
  /-- `L`, the output latch (R18). -/
  l : Byte
  deriving DecidableEq, Repr

/-- The power-up state of a configuration with the three registers drawn (R27, R114): the ROM holds the image. -/
def State.powerUp (c : Cfg) (h v l : Byte) : State where
  cfg := c
  rom := []
  h := h
  v := v
  l := l

/-- The state the host starts from. The block has no reset and its power-up values are free draws (R27, R113, R114):
this is the one power-up state of the scenario with every register 0 (DESIGN CHOICE, log entries 3 and 4; unsafe). -/
def State.reset : State := State.powerUp Config.scenario 0#8 0#8 0#8

/-- One clock edge writes the three registers together and nothing else (R29, R87). -/
def State.edge (s : State) (h v l : Byte) : State := { s with h := h, v := v, l := l }

/-- The latch holding another word. -/
def State.setLatch (s : State) (w : Byte) : State := { s with l := w }

end Sys2Proof.Machine
end

