-- ==== Sys2Proof/Decode.lean ====
section
/-! DEFINITION. The control word (30_encoding.md): packing a signal record, extracting a signal, the decoding of a word
to its counter operation, and the encoder of an operation's field. Every definition takes the layout as a parameter. -/

namespace Sys2Proof

/-- One signal's contribution to a packed byte, `S.sig << LAYOUT(sig)`; an absent signal contributes nothing (R50). -/
def bitAt (p : Option (Fin 8)) (b : Bool) : Byte :=
  match p with
  | some i => if b then 1#8 <<< i.val else 0#8
  | none => 0#8

/-- `pack(S)` (R50): bit `LAYOUT(sig)` is `S.sig` for each present signal, every other bit is 0. -/
def pack (lay : Layout) (r : Signals) : Byte :=
  Signal.all.foldr (fun sig w => bitAt (lay.pos sig) (r.get sig) ||| w) 0#8

/-- `w.SIG` (R51). An absent signal's value is undefined there: a free value. -/
def bitOf (lay : Layout) (sig : Signal) (w : Byte) : Bool :=
  match lay.pos sig with
  | some i => w.getLsbD i.val
  | none => Config.absentBit sig w

/-- The operation that a pair of reset bits selects, `HRESET_N` first (the table of R54). -/
def opOfBits : Bool → Bool → Instr
  | true, true => .count
  | false, true => .hclr
  | true, false => .vclr
  | false, false => .hvclr

/-- The counter operation of a word (R53, R54): total, every byte selects one. -/
def decodeWord (lay : Layout) (w : Byte) : Instr := opOfBits (bitOf lay .hresetN w) (bitOf lay .vresetN w)

/-- Why a sequence of bytes is no control word: every word is exactly one byte (R45, R56). -/
inductive DecodeError where
  /-- No byte at all. -/
  | noWord
  /-- More than one byte. -/
  | moreThanOneByte
  deriving DecidableEq, Repr

/-- The decoder, total on any bytes (R54, R56). -/
def decode (lay : Layout) : List Byte → Except DecodeError Instr
  | [] => .error .noWord
  | [w] => .ok (decodeWord lay w)
  | _ :: _ :: _ => .error .moreThanOneByte

/-- The mask of the counter-operation field: its two bits under the layout (R54; `0x30` under `REF`). -/
def opMask (lay : Layout) : Byte := bitAt lay.hresetN true ||| bitAt lay.vresetN true

/-- The match value of an operation: its two reset bits at their places, every other bit 0 (R54). -/
def opMatch (lay : Layout) (i : Instr) : Byte :=
  bitAt lay.hresetN i.resetBits.1 ||| bitAt lay.vresetN i.resetBits.2

/-- The words of an operation: one byte, its field set and every output bit 0 (R54, R56). -/
def encode (lay : Layout) (i : Instr) : List Byte := [opMatch lay i]

/-- A word of an operation with the output bits taken from another byte (R53: they do not change the operation). -/
def encodeWithOutputs (lay : Layout) (i : Instr) (outputs : Byte) : Byte :=
  opMatch lay i ||| (outputs &&& ~~~(opMask lay))

/-- The bytes of a table word of `nbits` bits, the least significant first. -/
def wordBytes (nbits w : Nat) : List Byte :=
  (List.range (nbits / 8)).map fun k => BitVec.ofNat 8 (w / 256 ^ k)

/-- What the decoder reads from a word numbered as spec/opcode_table.json numbers it. The table is written under `REF`
(R49), so the word is decoded under `REF`. -/
def decodeTableWord (nbits w : Nat) : Option Instr :=
  match decode Layout.ref (wordBytes nbits w) with
  | .ok i => some i
  | .error _ => none

end Sys2Proof
end

