-- ==== Sys2Proof/Machine/Table.lean ====
section
/-! DEFINITION. The ROM content as a function of the configuration and the address (40_content_table.md): the
partitions, the vertical phase, the signal record `S(x, y)` and the table byte `T(x, y)`. -/

namespace Sys2Proof.Machine

/-- The five horizontal intervals of R59. -/
inductive HPhase where
  | hdisp | hfp | hsync | hbp | htail
  deriving DecidableEq, Repr

/-- The five vertical intervals of R60. -/
inductive VPhase where
  | vdisp | vfp | vsync | vbp | vfill
  deriving DecidableEq, Repr

/-- `x` lies in the half-open interval of R59 that the phase names. -/
def HPhase.holdsAt (c : Cfg) (x : Nat) : HPhase → Bool
  | .hdisp => decide (x < c.hbiStart)
  | .hfp => decide (c.hbiStart ≤ x ∧ x < c.hsyStart)
  | .hsync => decide (c.hsyStart ≤ x ∧ x < c.hsyEnd)
  | .hbp => decide (c.hsyEnd ≤ x ∧ x < c.hbiEnd)
  | .htail => decide (c.hbiEnd ≤ x ∧ x < 256)

/-- `y` lies in the half-open interval of R60 that the phase names. -/
def VPhase.holdsAt (c : Cfg) (y : Nat) : VPhase → Bool
  | .vdisp => decide (y < c.vbiStart)
  | .vfp => decide (c.vbiStart ≤ y ∧ y < c.vsyStart)
  | .vsync => decide (c.vsyStart ≤ y ∧ y < c.vsyEnd)
  | .vbp => decide (c.vsyEnd ≤ y ∧ y < c.vbiEnd)
  | .vfill => decide (c.vbiEnd ≤ y ∧ y < 256)

/-- The horizontal phase of a column: the first boundary it lies below (R59). -/
def hPhase (c : Cfg) (x : Nat) : HPhase :=
  if x < c.hbiStart then .hdisp
  else if x < c.hsyStart then .hfp
  else if x < c.hsyEnd then .hsync
  else if x < c.hbiEnd then .hbp
  else .htail

/-- The vertical interval of a line (R60). -/
def vPhase (c : Cfg) (y : Nat) : VPhase :=
  if y < c.vbiStart then .vdisp
  else if y < c.vsyStart then .vfp
  else if y < c.vsyEnd then .vsync
  else if y < c.vbiEnd then .vbp
  else .vfill

/-- `vdisp(y)`: a display line (R61). -/
def vdisp (c : Cfg) (y : Nat) : Bool := decide (y < c.vbiStart)

/-- `vfirst(y)`: the first vertical-blank line (R61). -/
def vfirst (c : Cfg) (y : Nat) : Bool := decide (y = c.vbiStart)

/-- `vlast(y)`: the last vertical-blank line, `y = VBI_END − 1` (R61). -/
def vlast (c : Cfg) (y : Nat) : Bool := decide (y + 1 = c.vbiEnd)

/-- Whether the column asks for a horizontal clear in a main row (R72). -/
def hresetColumn (c : Cfg) (x : Nat) : Bool :=
  if c.hresetPolicy = .exact then decide (x = c.hbiEnd) else decide (c.hbiEnd ≤ x)

/-- Whether a filler address asks for both clears under `SINGLE_PULSE` or `PER_LINE` (R76, R77). -/
def fillerPulse (c : Cfg) (x y : Nat) : Bool :=
  decide (x = c.hbiEnd) && (decide (c.fillerPolicy = .perLine) || decide (y = c.vbiEnd))

/-- The record of a filler row (R75 to R78): every signal 0, the two reset bits by the policy. -/
def fillerSignals (c : Cfg) (x y : Nat) : Signals :=
  if c.fillerPolicy = .sustained then Signals.zero
  else { Signals.zero with hresetN := !fillerPulse c x y, vresetN := !fillerPulse c x y }

/-- The record of a main row (R64 to R74), one field per rule. -/
def mainSignals (c : Cfg) (x y : Nat) : Signals where
  display := decide (x < c.hbiStart) && decide (y < c.vbiStart)
  vblank := decide (c.vbiStart ≤ y)
  vsyncN := !(decide (c.vsyStart ≤ y) && decide (y < c.vsyEnd))
  vresetN := true
  vblankPulse := decide (c.vbiStart ≤ y) && decide (y < c.vbiStart + c.vpulseWidth)
  hblank := decide (c.hbiStart ≤ x)
  hsyncN := !(decide (c.hsyStart ≤ x) && decide (x < c.hsyEnd))
  hresetN := !hresetColumn c x
  blankStart := decide (x = c.hbiStart) && (vdisp c y || vfirst c y)
  blankEnd := decide (x + c.irqRecovery = c.hbiEnd) && (vdisp c y || vlast c y)

/-- `S(x, y)` (R62). -/
def signals (c : Cfg) (x y : Nat) : Signals :=
  if c.vbiEnd ≤ y then fillerSignals c x y else mainSignals c x y

/-- `T(x, y) = pack(S(x, y))` (R62). -/
def tableByte (c : Cfg) (x y : Nat) : Byte := pack c.layout (signals c x y)

/-- The image's byte at an address, `T(a mod 256, a div 256)` (R32, R34): what an address of the ROM reads as unless a
cell is listed for it. -/
def imageByte (c : Cfg) (a : Nat) : Byte := tableByte c (a % 256) (a / 256)

end Sys2Proof.Machine
end

