-- ==== Sys2Proof/Machine/Validate.lean ====
section
/-! DEFINITION. `ConfigurationError` (R100): which clause the refusal of an invalid configuration records. The table
writer, loading, building a machine and the step all ask here. -/

namespace Sys2Proof.Machine

/-- The clause that `raise ConfigurationError(clause)` records, `none` for a valid configuration (R100). Where one
clause fails it is that one; where several fail the spec does not say which, and the choice among them is the free value
`Config.reportedClause` (log entry 7). -/
def configurationError (c : Cfg) : Option Clause :=
  match c.failedClauses with
  | [] => none
  | [k] => some k
  | k :: j :: rest => some ((k :: j :: rest).getD (Config.reportedClause c % (rest.length + 2)) k)

end Sys2Proof.Machine
end

