-- ==== Sys2Proof/Machine/Ops.lean ====
section
/-! DEFINITION. The shared operations: reading the ROM, its canonical form, loading an image before power-up, the
counter updates, and the check that a state is a machine of the block. The block takes no exception and returns from
none (R102, R108), so there is no operation for either. -/

namespace Sys2Proof.Machine

/-- `MemRead(a, 1) = ROM[a]` (R30): total; an address that is not listed reads as the image's byte. -/
def Memory.read (c : Cfg) (m : Memory) (a : Nat) : Byte :=
  match m.lookup a with
  | some b => b
  | none => imageByte c a

/-- The canonical form: addresses strictly rising, each an address of the ROM, no entry equal to what an unlisted
address reads as. -/
abbrev Memory.wf (c : Cfg) (m : Memory) : Prop :=
  m.Pairwise (fun p q => p.1 < q.1) ∧ ∀ cell ∈ m, cell.1 < romSize ∧ cell.2 ≠ imageByte c cell.1

/-- The ROM holds the table at every address (R32): no listed cell changes what is read, and none lies outside the
address space. -/
def Memory.isImage (c : Cfg) (m : Memory) : Bool :=
  m.all fun cell => decide (cell.1 < romSize) && decide (Memory.read c m cell.1 = imageByte c cell.1)

/-- The cells of a sequence of bytes at address 0 that differ from the image's bytes. -/
def Memory.ofBytes (c : Cfg) (bytes : List Byte) : Memory :=
  (bytes.zipIdx.map fun p => (p.2, p.1)).filter fun cell => decide (cell.2 ≠ imageByte c cell.1)

/-- Programming a sequence of bytes at address 0 before operation (R36). An invalid configuration has no machine to
program (R100); a sequence that is not exactly 65536 bytes long is no ROM image and is not programmed (R33, R101). That
any 65536 bytes are programmed, and a wrong table is left to the step to refuse, is the model's choice (log entry 15). -/
def Memory.load (c : Cfg) (bytes : List Byte) : Except Refusal Memory :=
  match configurationError c with
  | some k => .error (.configurationError k)
  | none => if bytes.length = romSize then .ok (Memory.ofBytes c bytes) else .error .writeError

/-- The address on `A[15:0]`: `A = V ‖ H` (R31). -/
def romAddr (s : State) : Addr := s.v ++ s.h

/-- The byte on `D[7:0]`: `D = ROM[A]` (R88). -/
def romData (s : State) : Byte := Memory.read s.cfg s.rom (romAddr s).toNat

/-- A counter's increment: unsigned, 8 bits, wrapping from 255 to 0 (R96, R98). -/
def countUp (b : Byte) : Byte := b + 1#8

/-- A counter's value after a clear (R96, R98). -/
def cleared : Byte := 0#8

/-- Why a state is not a machine of the block, `none` when it is one: its configuration must be valid (R8, R100) and its
ROM must hold the configuration's table (R44, R101). -/
def machineRefusal (s : State) : Option Refusal :=
  match configurationError s.cfg with
  | some k => some (.configurationError k)
  | none => if Memory.isImage s.cfg s.rom then none else some .romNotImage

end Sys2Proof.Machine
end

