-- ==== Sys2Proof/Machine/Operands.lean ====
section
/-! DEFINITION. What a step reads, and the ports: the word that selects the operation, the reset bits of the latch and
of the ROM data, and the observable lines (R15, R26, R99). -/

namespace Sys2Proof.Machine

/-- The word the next edge decodes: the latch's, not the ROM data (R90). -/
def fetchWord (s : State) : Byte := s.l

/-- `L.HRESET_N`. -/
def latchHresetN (s : State) : Bool := bitOf s.cfg.layout .hresetN s.l

/-- `L.VRESET_N`. -/
def latchVresetN (s : State) : Bool := bitOf s.cfg.layout .vresetN s.l

/-- `D.HRESET_N`: the horizontal reset bit of the word this edge latches (R97). -/
def dataHresetN (s : State) : Bool := bitOf s.cfg.layout .hresetN (romData s)

/-- `Q[7:0]`, the control lines: the latch (R15, R99). -/
def portQ (s : State) : Byte := s.l

/-- `HC[7:0]`: the horizontal counter, on `A[7:0]` (R15). -/
def portHC (s : State) : Byte := s.h

/-- `VC[7:0]`: the vertical counter, on `A[15:8]` (R15). -/
def portVC (s : State) : Byte := s.v

/-- The line of one signal: `L.SIG` where the layout maps it; no line carries an absent signal (R48, R99). -/
def line (s : State) (sig : Signal) : Option Bool :=
  match s.cfg.layout.pos sig with
  | some i => some ((portQ s).getLsbD i.val)
  | none => none

/-- The observation of one cycle, `(H, V, L)` (R26). -/
def observe (s : State) : Byte × Byte × Byte := (s.h, s.v, s.l)

end Sys2Proof.Machine
end

