-- ==== Sys2Proof/Machine/Flags.lean ====
section
/-! DEFINITION. The block has no flags (R22). These are the conditions of one clock edge, computed from the state before
it and stored nowhere: the two clears (R90) and the line end (R97). -/

namespace Sys2Proof.Machine

/-- `hclr`: the latched word asks for a horizontal clear (R90). -/
def hclr (s : State) : Bool := !latchHresetN s

/-- `vclr`: the latched word asks for a vertical clear (R90). -/
def vclr (s : State) : Bool := !latchVresetN s

/-- `release`: the clear is applied at this edge and the word latched at this edge no longer asks for it (R97). -/
def releases (s : State) : Bool := hclr s && dataHresetN s

/-- `wrap`: `H` counts from 255 to 0 at this edge (R97). -/
def wraps (s : State) : Bool := !hclr s && decide (s.h = 255#8)

/-- `lineEnd`: `V` counts at this edge unless it is cleared (R97). -/
def lineEnd (s : State) : Bool := releases s || wraps s

end Sys2Proof.Machine
end

