-- ==== Sys2Proof/Machine/Counter.lean ====
section
/-! DEFINITION. The meanings of the four counter operations (R92 to R95), each from its own rule's pseudocode, over the
shared counter updates. That together they are the step function of R91 is a statement. -/

namespace Sys2Proof.Machine

/-- `COUNT` (R92): `H` counts; `V` counts when `H` wraps; the latch loads the addressed byte. -/
def execCount (s : State) : Host.Outcome State Fault Refusal :=
  .next (s.edge (countUp s.h) (if s.h = 255#8 then countUp s.v else s.v) (romData s))

/-- `HCLR` (R93): `H` is cleared; `V` counts when the word being latched releases the clear. -/
def execHclr (s : State) : Host.Outcome State Fault Refusal :=
  .next (s.edge cleared (if dataHresetN s then countUp s.v else s.v) (romData s))

/-- `VCLR` (R94): `H` counts; `V` is cleared, which has priority over a line end by wrap. -/
def execVclr (s : State) : Host.Outcome State Fault Refusal :=
  .next (s.edge (countUp s.h) cleared (romData s))

/-- `HVCLR` (R95): both counters are cleared, which has priority over a release. -/
def execHvclr (s : State) : Host.Outcome State Fault Refusal :=
  .next (s.edge cleared cleared (romData s))

end Sys2Proof.Machine
end

