-- ==== Sys2Proof/Machine/Dispatch.lean ====
section
/-! DEFINITION. Which meaning each operation has. -/

namespace Sys2Proof.Machine

def exec (i : Instr) (s : State) : Host.Outcome State Fault Refusal :=
  match i with
  | .count => Sys2Proof.Machine.execCount s
  | .hclr => Sys2Proof.Machine.execHclr s
  | .vclr => Sys2Proof.Machine.execVclr s
  | .hvclr => Sys2Proof.Machine.execHvclr s

end Sys2Proof.Machine
end

