-- ==== Sys2Proof/Machine/Step.lean ====
section
/-! DEFINITION. One clock edge (R12, R91): a state that is no machine of the block is refused (R100, R101); any other
runs the operation its latched word selects (R54, R90). -/

namespace Sys2Proof.Machine

/-- One clock edge. -/
def step (s : State) : Host.Outcome State Fault Refusal :=
  match machineRefusal s with
  | some r => .refused r
  | none => exec (decodeWord s.cfg.layout (fetchWord s)) s

/-- The state with a table word stored where the next step takes its operation: in the latch. The table's words are
written under `REF` (R49), the layout of the reset state. -/
def State.withFetchWord (s : State) (nbits w : Nat) : State :=
  s.setLatch (BitVec.ofNat 8 (w % 2 ^ nbits))

end Sys2Proof.Machine
end

