-- ==== Sys2Proof/Machine/ClockStep.lean ====
section
/-! DEFINITION. The step function as R91 writes it, in one piece: the reference that the dispatched step is stated to
agree with. -/

namespace Sys2Proof.Machine

/-- `step(H, V, L)` of R91, with the update laws of R96 (`H`), R98 (`V`) and R89 (`L`). -/
def clockStep (s : State) : State :=
  s.edge
    (if hclr s then cleared else countUp s.h)
    (if vclr s then cleared else if lineEnd s then countUp s.v else s.v)
    (romData s)

end Sys2Proof.Machine
end

