-- ==== Sys2Proof/Machine/Compiler.lean ====
section
/-! DEFINITION. The four pieces of the table compiler that define the ROM's content (R2): the vertical and horizontal
phase classifiers and the byte composer in the source's order (R63), and the table writer (R33, R34). That the composer
computes the record of R62 is a statement, not a definition. And the whole way from a configuration to a machine, which
an invalid configuration does not go (R100, R117). -/

namespace Sys2Proof.Machine

/-- The composer's own step: the display-interval bit (R63, R65). -/
def composeDisplay (c : Cfg) (x y : Nat) (r : Signals) : Signals :=
  if hPhase c x = .hdisp ∧ vPhase c y = .vdisp then { r with display := true } else r

/-- The vertical classifier's adjustments for a line of the main rows (R60, R66 to R69). -/
def classifyVertical (c : Cfg) (y : Nat) (r : Signals) : Signals :=
  let blanked : Signals :=
    match vPhase c y with
    | .vdisp => r
    | .vfp => { r with vblank := true }
    | .vsync => { r with vblank := true, vsyncN := false }
    | .vbp => { r with vblank := true }
    | .vfill => r
  if c.vbiStart ≤ y ∧ y < c.vbiStart + c.vpulseWidth then { blanked with vblankPulse := true } else blanked

/-- The horizontal classifier's adjustments for a column (R59, R70 to R74). Of the line it is given the three Booleans
of the vertical phase and nothing more (R61). -/
def classifyHorizontal (c : Cfg) (isDisp isFirst isLast : Bool) (x : Nat) (r : Signals) : Signals :=
  let blanked : Signals :=
    match hPhase c x with
    | .hdisp => r
    | .hfp => { r with hblank := true }
    | .hsync => { r with hblank := true, hsyncN := false }
    | .hbp => { r with hblank := true }
    | .htail => { r with hblank := true, hresetN := !hresetColumn c x }
  let started : Signals :=
    if x = c.hbiStart ∧ (isDisp || isFirst) = true then { blanked with blankStart := true } else blanked
  if x + c.irqRecovery = c.hbiEnd ∧ (isDisp || isLast) = true then { started with blankEnd := true } else started

/-- The horizontal classifier with the vertical phase of line `y` (R61). -/
def classifyHorizontalAt (c : Cfg) (x y : Nat) (r : Signals) : Signals :=
  classifyHorizontal c (vdisp c y) (vfirst c y) (vlast c y) x r

/-- The byte composer in the source's order (R63): idle word, display bit, vertical adjustments, horizontal
adjustments; the filler branch replaces the whole record. -/
def composeSignals (c : Cfg) (x y : Nat) : Signals :=
  match vPhase c y with
  | .vfill => fillerSignals c x y
  | _ => classifyHorizontalAt c x y (classifyVertical c y (composeDisplay c x y Signals.idle))

/-- The bytes the table writer emits, `y` outer and `x` inner (R34). -/
def emitTable (c : Cfg) : List Byte :=
  (List.range 256).flatMap fun y => (List.range 256).map fun x => pack c.layout (composeSignals c x y)

/-- The table writer: an invalid configuration is an error before any byte is emitted, and has no image (R100). -/
def writeTable (c : Cfg) : Except Refusal (List Byte) :=
  match configurationError c with
  | some k => .error (.configurationError k)
  | none => .ok (emitTable c)

/-- A machine of a configuration with its registers drawn (R114, R117): the table is written and programmed, then the
block is powered. -/
def buildMachine (c : Cfg) (h v l : Byte) : Except Refusal State :=
  match writeTable c with
  | .error r => .error r
  | .ok bytes =>
    match Memory.load c bytes with
    | .error r => .error r
    | .ok m => .ok { State.powerUp c h v l with rom := m }

end Sys2Proof.Machine
end

