-- ==== Sys2Proof/Safety.lean ====
section
/-! DEFINITION. The terms the statements use: a machine of the block, a settled latch, the frame's states, its anchor and
its period, and a run of edges. -/

namespace Sys2Proof.Machine

/-- A machine of the block: its configuration is valid (R8) and its ROM holds the configuration's table (R32, R117).
The registers may hold anything (R28). -/
abbrev Sound (s : State) : Prop := s.cfg.valid = true ∧ Memory.isImage s.cfg s.rom = true

/-- A byte that the table of the configuration holds at some address. -/
abbrev IsTableByte (c : Cfg) (w : Byte) : Prop := ∃ x < 256, ∃ y < 256, w = tableByte c x y

/-- A machine after its first edge: its ROM is in canonical form and its latch holds a byte of the table. -/
abbrev Settled (s : State) : Prop := Sound s ∧ Memory.wf s.cfg s.rom ∧ IsTableByte s.cfg s.l

/-- `n` edges from `s` end in `t`, with no edge refused. -/
abbrev Runs (n : Nat) (s t : State) : Prop := Sys2Proof.core.run n s = .next t

/-- The observable trace of a run, one triple `(H, V, L)` per cycle (R26): cycle 0 to cycle `n`, cut short where an edge
is refused. -/
def trace : Nat → State → List (Byte × Byte × Byte)
  | 0, s => [observe s]
  | n + 1, s =>
    match step s with
    | .next t => observe s :: trace n t
    | .fault _ => [observe s]
    | .refused _ => [observe s]

/-- The configurations of R116, R119, R120 and R123: a line has its reset column and the column after it, and there is
a filler row. -/
abbrev Regular (c : Cfg) : Prop := c.hbiEnd ≤ 254 ∧ c.vbiEnd ≤ 255

/-- The counters hold `(x, y)` and the latch holds `w`. -/
abbrev At (s : State) (x y : Nat) (w : Byte) : Prop := s.h.toNat = x ∧ s.v.toNat = y ∧ s.l = w

/-- The column presented just before a main row's last edge: under `TAIL` column 0 is presented a second time (R125). -/
def rowEndColumn (c : Cfg) : Nat := if c.hresetPolicy = .tail then 0 else c.hbiEnd + 1

/-- How many cycles a main row lasts where `HBI_END ≤ 254` (R119). -/
def lineLength (c : Cfg) : Nat := if c.hresetPolicy = .tail then c.hbiEnd + 3 else c.hbiEnd + 2

/-- The frame anchor's latch (R116). -/
def anchorLatch (c : Cfg) : Byte :=
  if c.fillerPolicy = .sustained then tableByte c 0 0 else tableByte c (c.hbiEnd + 1) c.vbiEnd

/-- The frame anchor (R116). -/
def frameAnchor (c : Cfg) : State := State.powerUp c 0#8 0#8 (anchorLatch c)

/-- The words the latch may hold on the frame while the counters hold `(x, y)`: the byte of the address presented one
cycle before (R118). At column 0 that is the end of the line above, or of the frame; under `SUSTAINED` also the address
`(0, 0)` itself, and under `TAIL` also the tail of the same line (R120, R125). -/
def frameLatches (c : Cfg) (x y : Nat) : List Byte :=
  if x ≠ 0 then [tableByte c (x - 1) y]
  else
    (if y ≠ 0 then [tableByte c (rowEndColumn c) (y - 1)]
      else if c.fillerPolicy = .sustained then [tableByte c 1 c.vbiEnd, tableByte c 0 0]
      else [tableByte c (c.hbiEnd + 1) c.vbiEnd])
    ++ (if c.hresetPolicy = .tail ∧ y < c.vbiEnd then [tableByte c (c.hbiEnd + 1) y] else [])

/-- The addresses presented in normal operation (R123). -/
def frameAddress (c : Cfg) (x y : Nat) : Bool :=
  decide (x ≤ c.hbiEnd + 1) &&
    (if c.fillerPolicy = .sustained then decide (y < c.vbiEnd) || (decide (y = c.vbiEnd) && decide (x ≤ 1))
      else decide (y ≤ c.vbiEnd))

/-- A state of the frame's cycle: a regular machine at an address of normal operation, its latch holding the byte of
the address before (R115, R118, R123). -/
abbrev OnFrame (s : State) : Prop :=
  Sound s ∧ Regular s.cfg ∧ frameAddress s.cfg s.h.toNat s.v.toNat = true ∧
    s.l ∈ frameLatches s.cfg s.h.toNat s.v.toNat

/-- The table gives a signal the value `b` at `(x, y)`: in the record of R62 and, where the layout maps the signal, in
the byte the ROM holds (R50, R62). -/
abbrev TableGives (c : Cfg) (x y : Nat) (sig : Signal) (b : Bool) : Prop :=
  (signals c x y).get sig = b ∧ ∀ i, c.layout.pos sig = some i → (tableByte c x y).getLsbD i.val = b

/-- The latch selects an operation (R53, R90). -/
abbrev Selects (s : State) (i : Instr) : Prop := decodeWord s.cfg.layout s.l = i

/-- `release` (R97) at a machine whose ROM holds the table: the latch asks for a horizontal clear and the table's byte
of the address does not. -/
abbrev ReleasesAt (s : State) : Prop :=
  bitOf s.cfg.layout .hresetN s.l = false ∧
    bitOf s.cfg.layout .hresetN (tableByte s.cfg s.h.toNat s.v.toNat) = true

/-- `wrap` (R97): no horizontal clear, and `H` is 255. -/
abbrev WrapsAt (s : State) : Prop := bitOf s.cfg.layout .hresetN s.l = true ∧ s.h.toNat = 255

/-- A safe run: no edge of it is refused. -/
abbrev SafeRun (n : Nat) (s : State) : Prop := ∃ t, Runs n s t

end Sys2Proof.Machine
end

