-- ==== Sys2Proof/Certificates/Slice0/Obligations.lean ====
section
/-! DEFINITION. The statements for the provers. Each docstring names the rule it formalises and, where the rule rests on
a decision of the spec (92_eei_decisions.md) or of the model (notes/assumptions), says so. -/

open Sys2Proof Sys2Proof.Machine

/-! ## The control word -/

/-- 30_encoding.md section 3. Under every layout that carries the operation field, decoding an operation's word gives it
back, whatever the output bits are; the output bits are kept; and each word is the word of the operation it decodes to,
with its own output bits. -/
def Obligations.DecodeOfEncodeIsTheOperation : Prop :=
  ∀ (lay : Layout) (i : Instr), i.wellFormed lay = true →
    decode lay (encode lay i) = .ok i ∧
    (∀ outputs : Byte, decode lay [encodeWithOutputs lay i outputs] = .ok i ∧
      encodeWithOutputs lay i outputs &&& ~~~(opMask lay) = outputs &&& ~~~(opMask lay)) ∧
    ∀ w : Byte, encodeWithOutputs lay (decodeWord lay w) w = w

/-- R54: the table of operations by reset bits, its totality, the match and mask under `REF`, and how match and mask are
formed under any other valid layout. -/
def Obligations.OperationFieldSelectsTheOperation : Prop :=
  (∀ (lay : Layout) (w : Byte), ∃ i, decode lay [w] = .ok i ∧ ∀ j, decode lay [w] = .ok j → j = i) ∧
  (∀ c : Cfg, c.valid = true → ∀ w : Byte,
    (decodeWord c.layout w = .count ↔ bitOf c.layout .hresetN w = true ∧ bitOf c.layout .vresetN w = true) ∧
    (decodeWord c.layout w = .hclr ↔ bitOf c.layout .hresetN w = false ∧ bitOf c.layout .vresetN w = true) ∧
    (decodeWord c.layout w = .vclr ↔ bitOf c.layout .hresetN w = true ∧ bitOf c.layout .vresetN w = false) ∧
    (decodeWord c.layout w = .hvclr ↔ bitOf c.layout .hresetN w = false ∧ bitOf c.layout .vresetN w = false) ∧
    ∀ i, decodeWord c.layout w = i ↔ w &&& opMask c.layout = opMatch c.layout i) ∧
  (opMask Layout.ref = 0x30#8 ∧ opMatch Layout.ref .count = 0x30#8 ∧ opMatch Layout.ref .hclr = 0x20#8 ∧
    opMatch Layout.ref .vclr = 0x10#8 ∧ opMatch Layout.ref .hvclr = 0x00#8) ∧
  (∀ c : Cfg, c.valid = true → ∃ p q : Fin 8, c.layout.hresetN = some p ∧ c.layout.vresetN = some q ∧
    ∀ n : Nat, ((opMask c.layout).getLsbD n = true ↔ n = p.val ∨ n = q.val) ∧
      ∀ i, ((opMatch c.layout i).getLsbD n = true ↔
        (n = p.val ∧ i.resetBits.1 = true) ∨ (n = q.val ∧ i.resetBits.2 = true)))

/-- R53: the operation field is the pair of reset bits of the word in `L`; a latch that differs in other bits alone
steps to the same outcome; under `REF` the field is bits 5 and 4. -/
def Obligations.OnlyTheResetBitsChangeState : Prop :=
  (∀ s : State, decode s.cfg.layout [fetchWord s] =
    .ok (opOfBits (bitOf s.cfg.layout .hresetN s.l) (bitOf s.cfg.layout .vresetN s.l))) ∧
  (∀ (s : State) (w : Byte),
    bitOf s.cfg.layout .hresetN w = bitOf s.cfg.layout .hresetN s.l →
    bitOf s.cfg.layout .vresetN w = bitOf s.cfg.layout .vresetN s.l → step (s.setLatch w) = step s) ∧
  (∀ w : Byte, bitOf Layout.ref .hresetN w = w.getLsbD 4 ∧ bitOf Layout.ref .vresetN w = w.getLsbD 5)

/-- 30_encoding.md sections 1 and 3: a sequence of bytes decodes exactly when it is one byte long; no byte is reserved. -/
def Obligations.ExactlyOneByteDecodes : Prop :=
  ∀ (lay : Layout) (bytes : List Byte), (∃ i, decode lay bytes = .ok i) ↔ bytes.length = 1

/-- 95_test_vectors.md section 2.1: words written out under `REF`. -/
def Obligations.WrittenWordsDecode : Prop :=
  decode Layout.ref [0x73#8] = .ok .count ∧ decode Layout.ref [0x27#8] = .ok .hclr ∧
  decode Layout.ref [0x10#8] = .ok .vclr ∧ decode Layout.ref [0xCF#8] = .ok .hvclr ∧
  decodeTableWord 8 0x30 = some .count ∧ decodeTableWord 8 0x20 = some .hclr ∧
  decodeTableWord 8 0x10 = some .vclr ∧ decodeTableWord 8 0x00 = some .hvclr

/-- 30_encoding.md section 2 (with the spec's decision D6): a packed byte has each present signal at its bit, 0 at every
bit no signal maps to, and is the sum of the shifted signals. -/
def Obligations.PackedByteCarriesItsSignals : Prop :=
  ∀ (lay : Layout) (r : Signals), lay.injective = true →
    (∀ sig i, lay.pos sig = some i → (pack lay r).getLsbD i.val = r.get sig ∧ bitOf lay sig (pack lay r) = r.get sig) ∧
    (∀ n : Nat, (∀ sig i, lay.pos sig = some i → i.val ≠ n) → (pack lay r).getLsbD n = false) ∧
    (pack lay r).toNat = (Signal.all.map fun sig =>
      match lay.pos sig with
      | some i => if r.get sig then 2 ^ i.val else 0
      | none => 0).sum

/-! ## The table -/

/-- R59: the five horizontal intervals are a partition; which are never empty, and when the other two are. -/
def Obligations.ColumnLiesInExactlyOneInterval : Prop :=
  ∀ c : Cfg, c.valid = true →
    (∀ x < 256, ∀ p : HPhase, p.holdsAt c x = true ↔ hPhase c x = p) ∧
    (∃ x < 256, HPhase.hfp.holdsAt c x = true) ∧ (∃ x < 256, HPhase.hsync.holdsAt c x = true) ∧
    (∃ x < 256, HPhase.hbp.holdsAt c x = true) ∧
    (c.hbiStart = 0 → ∀ x < 256, HPhase.hdisp.holdsAt c x = false) ∧
    (c.hbiEnd = 256 → ∀ x < 256, HPhase.htail.holdsAt c x = false)

/-- R60: the five vertical intervals are a partition, and three of them make the vertical blanking interval. -/
def Obligations.LineLiesInExactlyOneInterval : Prop :=
  ∀ c : Cfg, c.valid = true → ∀ y < 256,
    (∀ p : VPhase, p.holdsAt c y = true ↔ vPhase c y = p) ∧
    (c.vbiStart ≤ y ∧ y < c.vbiEnd ↔
      VPhase.vfp.holdsAt c y = true ∨ VPhase.vsync.holdsAt c y = true ∨ VPhase.vbp.holdsAt c y = true)

/-- R65: `DISPLAY` in the table, with the rule's corner cases and examples. -/
def Obligations.DisplayBitOfTheTable : Prop :=
  (∀ c : Cfg, c.valid = true → ∀ x < 256, ∀ y < 256,
    TableGives c x y .display (decide (x < c.hbiStart) && decide (y < c.vbiStart)) ∧
    (c.hbiStart = 0 → TableGives c x y .display false) ∧ (c.vbiStart ≤ y → TableGives c x y .display false)) ∧
  Layout.ref.display = some 6 ∧
  tableByte Config.scenario 0 0 = 0x73#8 ∧ tableByte Config.scenario 100 0 = 0xB7#8

/-- R66: `VBLANK` in the table: the vertical blanking lines of the main rows, 0 in filler rows. -/
def Obligations.VerticalBlankBitOfTheTable : Prop :=
  (∀ c : Cfg, c.valid = true → ∀ x < 256, ∀ y < 256,
    TableGives c x y .vblank (decide (c.vbiStart ≤ y) && decide (y < c.vbiEnd))) ∧
  Layout.ref.vblank = some 3 ∧ tableByte Config.scenario 0 215 = 0x73#8 ∧
  tableByte Config.scenario 0 216 = 0x3B#8 ∧ tableByte Config.scenario 0 243 = 0x3B#8

/-- R67: `VSYNC_N` in main rows: 0 in its window for every column, and the window is not empty. -/
def Obligations.VerticalSyncBitOfTheTable : Prop :=
  (∀ c : Cfg, c.valid = true → (∃ y < 256, c.vsyStart ≤ y ∧ y < c.vsyEnd) ∧ ∀ x < 256, ∀ y < c.vbiEnd,
    TableGives c x y .vsyncN (!(decide (c.vsyStart ≤ y) && decide (y < c.vsyEnd)))) ∧
  Layout.ref.vsyncN = some 1 ∧ tableByte Config.scenario 0 216 = 0x3B#8 ∧ tableByte Config.scenario 0 217 = 0x39#8 ∧
  tableByte Config.scenario 0 220 = 0x39#8 ∧ tableByte Config.scenario 0 221 = 0x3B#8

/-- R68: `VRESET_N` is 1 in main rows; a filler address that clears it clears `HRESET_N` too; no table byte selects
`VCLR`, and no latch after an edge does. -/
def Obligations.VerticalResetOnlyInFillerRows : Prop :=
  (∀ c : Cfg, c.valid = true → ∀ x < 256, ∀ y < 256,
    (y < c.vbiEnd → TableGives c x y .vresetN true) ∧
    ((signals c x y).vresetN = false → c.vbiEnd ≤ y ∧ TableGives c x y .hresetN false) ∧
    decodeWord c.layout (tableByte c x y) ≠ .vclr) ∧
  (∀ (n : Nat) (s t : State), Runs (n + 1) s t → ¬ Selects t .vclr) ∧
  Layout.ref.vresetN = some 5 ∧ tableByte Config.scenario 132 243 = 0x2F#8 ∧
  TableGives Config.scenario 132 243 .vresetN true ∧ TableGives Config.scenario 132 243 .hresetN false

/-- R70: `HBLANK` in main rows: 1 in every column outside the display interval, on every line. -/
def Obligations.HorizontalBlankBitOfTheTable : Prop :=
  (∀ c : Cfg, c.valid = true → ∀ x < 256, ∀ y < c.vbiEnd, TableGives c x y .hblank (decide (c.hbiStart ≤ x)) ∧
    (hPhase c x ≠ .hdisp → TableGives c x y .hblank true)) ∧
  Layout.ref.hblank = some 2 ∧ tableByte Config.scenario 99 0 = 0x73#8 ∧ tableByte Config.scenario 100 0 = 0xB7#8 ∧
  tableByte Config.scenario 255 0 = 0x37#8

/-- R71: `HSYNC_N` in main rows: 0 in its window, on every line. -/
def Obligations.HorizontalSyncBitOfTheTable : Prop :=
  (∀ c : Cfg, c.valid = true → ∀ x < 256, ∀ y < c.vbiEnd,
    TableGives c x y .hsyncN (!(decide (c.hsyStart ≤ x) && decide (x < c.hsyEnd)))) ∧
  Layout.ref.hsyncN = some 0 ∧ tableByte Config.scenario 104 0 = 0x37#8 ∧ tableByte Config.scenario 105 0 = 0x36#8 ∧
  tableByte Config.scenario 120 0 = 0x36#8 ∧ tableByte Config.scenario 121 0 = 0x37#8 ∧
  tableByte Config.scenario 110 217 = 0x3C#8

/-- 40_content_table.md section 3, rule R72 (the spec's decision D7): `HRESET_N` in main rows under each policy; with
`HBI_END = 256` no column has it 0. -/
def Obligations.HorizontalResetColumnByPolicy : Prop :=
  ∀ c : Cfg, c.valid = true → ∀ x < 256, ∀ y < c.vbiEnd,
    (c.hresetPolicy = .exact → TableGives c x y .hresetN (!decide (x = c.hbiEnd))) ∧
    (c.hresetPolicy = .tail → TableGives c x y .hresetN (!decide (c.hbiEnd ≤ x))) ∧
    (c.hbiEnd = 256 → TableGives c x y .hresetN true)

/-- 40_content_table.md section 3, rules R69, R73 and R74 (the spec's decisions D11 to D13): the three strobes, at every
address, and the column of `BLANK_END` inside the back porch. -/
def Obligations.StrobeBitsOfTheTable : Prop :=
  ∀ c : Cfg, c.valid = true → ∀ x < 256, ∀ y < 256,
    TableGives c x y .blankStart (decide (x = c.hbiStart) && decide (y ≤ c.vbiStart)) ∧
    TableGives c x y .blankEnd
      (decide (x + c.irqRecovery = c.hbiEnd) && (decide (y < c.vbiStart) || decide (y + 1 = c.vbiEnd))) ∧
    TableGives c x y .vblankPulse (decide (c.vbiStart ≤ y) && decide (y < c.vbiStart + c.vpulseWidth)) ∧
    (x + c.irqRecovery = c.hbiEnd → hPhase c x = .hbp) ∧
    (c.vbiStart ≤ y → y < c.vbiStart + c.vpulseWidth → vPhase c y ≠ .vdisp ∧ vPhase c y ≠ .vfill)

/-- 40_content_table.md section 4, rules R75 to R78 (the spec's decisions D8 to D10): in filler rows every signal but the
two resets is 0, and the resets follow the filler policy. -/
def Obligations.FillerRowsFollowThePolicy : Prop :=
  ∀ c : Cfg, c.valid = true → ∀ x < 256, ∀ y < 256, c.vbiEnd ≤ y →
    (∀ sig, sig ≠ .hresetN → sig ≠ .vresetN → TableGives c x y sig false) ∧
    (∀ sig, sig = .hresetN ∨ sig = .vresetN →
      (c.fillerPolicy = .singlePulse → TableGives c x y sig (!decide (x = c.hbiEnd ∧ y = c.vbiEnd))) ∧
      (c.fillerPolicy = .perLine → TableGives c x y sig (!decide (x = c.hbiEnd))) ∧
      (c.fillerPolicy = .sustained → TableGives c x y sig false)) ∧
    (c.fillerPolicy = .sustained → tableByte c x y = 0#8)

/-- 40_content_table.md sections 2 and 5, rules R63 and R85: the byte composer of the classifiers computes the record of
R62, and in main rows the order of its three steps does not matter. -/
def Obligations.ComposerComputesTheRecord : Prop :=
  (∀ c : Cfg, c.valid = true → ∀ x < 256, ∀ y < 256, composeSignals c x y = signals c x y) ∧
  (∀ (c : Cfg) (x y : Nat) (r : Signals),
    classifyVertical c y (classifyHorizontalAt c x y r) = classifyHorizontalAt c x y (classifyVertical c y r) ∧
    classifyVertical c y (composeDisplay c x y r) = composeDisplay c x y (classifyVertical c y r) ∧
    classifyHorizontalAt c x y (composeDisplay c x y r) = composeDisplay c x y (classifyHorizontalAt c x y r))

/-- 20_memory.md section 2, 40_content_table.md section 5 and 70_reset_and_hazards.md section 1, rules R34, R84 and R117:
for a valid configuration the table writer emits 65536 bytes, the `k`-th is `T(k mod 256, k div 256)`, programming them
gives the ROM with nothing listed, and the machine built so is the power-up state of the draw. -/
def Obligations.TableWriterEmitsTheImage : Prop :=
  ∀ c : Cfg, c.valid = true → ∃ bytes, writeTable c = .ok bytes ∧
    bytes.length = 65536 ∧
    (∀ k < 65536, bytes[k]? = some (tableByte c (k % 256) (k / 256))) ∧
    Memory.load c bytes = .ok [] ∧
    ∀ h v l : Byte, buildMachine c h v l = .ok (State.powerUp c h v l)

/-- 20_memory.md section 2, rules R33 and R36, and 60_exceptions.md section 1, rule R101: for a valid configuration a
sequence of any other length than 65536 bytes is a write error and is not programmed, and once a sequence is programmed
the byte at offset `a` is what the ROM reads at `a`. That every sequence of 65536 bytes is programmed, the image or not,
is the model's choice (log entry 15): one that is not the table makes a machine that the step refuses
(`RomOtherThanTheTableIsRefused`). An invalid configuration is in `InvalidConfigurationIsRefused`. -/
def Obligations.ImageByteIsTheRomByte : Prop :=
  ∀ (c : Cfg) (bytes : List Byte), c.valid = true →
    (bytes.length = 65536 → ∃ m, Memory.load c bytes = .ok m) ∧
    (bytes.length ≠ 65536 → Memory.load c bytes = .error .writeError) ∧
    ∀ m, Memory.load c bytes = .ok m → ∀ a < 65536, bytes[a]? = some (Memory.read c m a)

/-- 40_content_table.md section 5, rule R80: the display window, and its byte under `REF`. -/
def Obligations.DisplayWindowOfTheTable : Prop :=
  ∀ c : Cfg, c.valid = true → ∀ x < c.hbiStart, ∀ y < c.vbiStart,
    TableGives c x y .display true ∧ TableGives c x y .hsyncN true ∧ TableGives c x y .vsyncN true ∧
    TableGives c x y .hblank false ∧ TableGives c x y .vblank false ∧
    (c.layout = Layout.ref → tableByte c x y = 0x73#8)

/-- 40_content_table.md section 5, rule R83: how many addresses clear the counters under each filler policy, where the
reset column and a filler row exist. -/
def Obligations.FillerPulseCounts : Prop :=
  ∀ c : Cfg, c.valid = true → c.hbiEnd ≤ 255 → c.vbiEnd ≤ 255 →
    let hz : Fin 256 × Fin 256 → Bool := fun p => bitOf c.layout .hresetN (tableByte c p.1.val p.2.val)
    let vz : Fin 256 × Fin 256 → Bool := fun p => bitOf c.layout .vresetN (tableByte c p.1.val p.2.val)
    (c.fillerPolicy = .singlePulse → ∀ p,
      (vz p = false ↔ p.1.val = c.hbiEnd ∧ p.2.val = c.vbiEnd) ∧
      (hz p = false ∧ ¬ (p.2.val < c.vbiEnd ∧ hresetColumn c p.1.val = true) ↔
        p.1.val = c.hbiEnd ∧ p.2.val = c.vbiEnd)) ∧
    (c.fillerPolicy = .perLine →
      (Finset.univ.filter fun p => hz p = false ∧ vz p = false).card = 256 - c.vbiEnd) ∧
    (c.fillerPolicy = .sustained →
      (Finset.univ.filter fun p => hz p = false ∧ vz p = false).card = 256 * (256 - c.vbiEnd))

/-! ## The ROM -/

/-- R31: the address lines are the vertical counter above the horizontal one. -/
def Obligations.AddressIsVerticalThenHorizontal : Prop :=
  ∀ s : State, (romAddr s).toNat = s.v.toNat * 256 + s.h.toNat ∧ romAddr s = s.v ++ s.h ∧
    (romAddr s).extractLsb' 8 8 = s.v ∧ (romAddr s).extractLsb' 0 8 = s.h

/-- R32: a machine's ROM holds `T(x, y)` at `y·256 + x`, and its content depends on the configuration alone. -/
def Obligations.RomHoldsTheTable : Prop :=
  (∀ s : State, Sound s → ∀ x < 256, ∀ y < 256,
    Memory.read s.cfg s.rom (y * 256 + x) = tableByte s.cfg x y) ∧
  (∀ s t : State, Sound s → Sound t → s.cfg = t.cfg → ∀ a < 65536,
    Memory.read s.cfg s.rom a = Memory.read t.cfg t.rom a)

/-- R40: no run of edges changes what any address reads, nor the configuration. -/
def Obligations.NothingWritesTheRom : Prop :=
  ∀ (n : Nat) (s t : State), Runs n s t →
    t.cfg = s.cfg ∧ t.rom = s.rom ∧ ∀ a, Memory.read t.cfg t.rom a = Memory.read s.cfg s.rom a

/-- 60_exceptions.md section 1, rule R101, and 20_memory.md section 5, rule R44: a ROM that reads other than the table at
some address is refused; in canonical form the table is the empty list alone. That the check stands in the step is the
model's choice (log entry 10). -/
def Obligations.RomOtherThanTheTableIsRefused : Prop :=
  (∀ s : State, s.cfg.valid = true →
    (∃ a < 65536, Memory.read s.cfg s.rom a ≠ tableByte s.cfg (a % 256) (a / 256)) →
    step s = .refused .romNotImage) ∧
  (∀ (c : Cfg) (m : Memory), Memory.wf c m → (Memory.isImage c m = true ↔ m = []))

/-! ## The four operations -/

/-- 41_clock_step.md section 2, rule R92 (the spec's decision D3): `COUNT` completes from every state; its result and its
frame. -/
def Obligations.CountCompletes : Prop :=
  ∀ s : State, ∃ t, exec .count s = .next t ∧
    t.h.toNat = (s.h.toNat + 1) % 256 ∧
    t.v.toNat = (if s.h.toNat = 255 then (s.v.toNat + 1) % 256 else s.v.toNat) ∧
    t.l = Memory.read s.cfg s.rom (s.v.toNat * 256 + s.h.toNat) ∧
    (Sound s → t.l = tableByte s.cfg s.h.toNat s.v.toNat) ∧
    t.cfg = s.cfg ∧ t.rom = s.rom ∧ ∀ a, Memory.read t.cfg t.rom a = Memory.read s.cfg s.rom a

/-- 41_clock_step.md section 2, rule R93 (the spec's decisions D2, D3): `HCLR` completes from every state; `V` counts
exactly when the addressed byte has `HRESET_N = 1`, whatever `H` was; its frame. At a layout without `HRESET_N`, which no
machine has, that bit is the free value of log entry 5. -/
def Obligations.HclrCompletes : Prop :=
  ∀ s : State, ∃ t, exec .hclr s = .next t ∧
    t.h.toNat = 0 ∧
    t.v.toNat = (if bitOf s.cfg.layout .hresetN (Memory.read s.cfg s.rom (s.v.toNat * 256 + s.h.toNat)) = true
      then (s.v.toNat + 1) % 256 else s.v.toNat) ∧
    t.l = Memory.read s.cfg s.rom (s.v.toNat * 256 + s.h.toNat) ∧
    (Sound s → t.l = tableByte s.cfg s.h.toNat s.v.toNat) ∧
    t.cfg = s.cfg ∧ t.rom = s.rom ∧ ∀ a, Memory.read t.cfg t.rom a = Memory.read s.cfg s.rom a

/-- 41_clock_step.md section 2, rule R94 (the spec's decisions D2, D4): `VCLR` completes from every state; `V` is 0 even
where `H` wraps; its frame. -/
def Obligations.VclrCompletes : Prop :=
  ∀ s : State, ∃ t, exec .vclr s = .next t ∧
    t.h.toNat = (s.h.toNat + 1) % 256 ∧ t.v.toNat = 0 ∧
    t.l = Memory.read s.cfg s.rom (s.v.toNat * 256 + s.h.toNat) ∧
    (Sound s → t.l = tableByte s.cfg s.h.toNat s.v.toNat) ∧
    t.cfg = s.cfg ∧ t.rom = s.rom ∧ ∀ a, Memory.read t.cfg t.rom a = Memory.read s.cfg s.rom a

/-- 41_clock_step.md section 2, rule R95 (the spec's decisions D2, D4): `HVCLR` completes from every state; both counters
are 0 even where the edge releases the clear; its frame. -/
def Obligations.HvclrCompletes : Prop :=
  ∀ s : State, ∃ t, exec .hvclr s = .next t ∧
    t.h.toNat = 0 ∧ t.v.toNat = 0 ∧
    t.l = Memory.read s.cfg s.rom (s.v.toNat * 256 + s.h.toNat) ∧
    (Sound s → t.l = tableByte s.cfg s.h.toNat s.v.toNat) ∧
    t.cfg = s.cfg ∧ t.rom = s.rom ∧ ∀ a, Memory.read t.cfg t.rom a = Memory.read s.cfg s.rom a

/-! ## The edge -/

/-- 41_clock_step.md sections 1 and 2: at a machine of the block, the step is the meaning of the operation that the word
in the latch decodes to; nothing is added around it. -/
def Obligations.StepRunsTheDecodedOperation : Prop :=
  ∀ (s : State) (i : Instr), Sound s → decode s.cfg.layout [fetchWord s] = .ok i → step s = exec i s

/-- 41_clock_step.md section 1, rule R91 (the spec's decisions D1 to D4): the dispatched step is the step function written
in one piece. -/
def Obligations.StepIsTheStepFunction : Prop :=
  ∀ s : State, Sound s → step s = .next (clockStep s)

/-- 41_clock_step.md section 3, rules R96 to R98 (the spec's decisions D2 to D4): what an edge does to each counter; a
release and a wrap exclude each other. -/
def Obligations.CountersFollowTheUpdateLaws : Prop :=
  ∀ s : State, Sound s → ¬ (ReleasesAt s ∧ WrapsAt s) ∧ ∃ t, step s = .next t ∧
    (bitOf s.cfg.layout .hresetN s.l = false → t.h.toNat = 0) ∧
    (bitOf s.cfg.layout .hresetN s.l = true → t.h.toNat = (s.h.toNat + 1) % 256) ∧
    (bitOf s.cfg.layout .vresetN s.l = false → t.v.toNat = 0) ∧
    (bitOf s.cfg.layout .vresetN s.l = true → (ReleasesAt s ∨ WrapsAt s) → t.v.toNat = (s.v.toNat + 1) % 256) ∧
    (bitOf s.cfg.layout .vresetN s.l = true → ¬ (ReleasesAt s ∨ WrapsAt s) → t.v = s.v)

/-- R89: the latch after an edge is the byte at the address before it, and that byte is on the control lines in the next
cycle. -/
def Obligations.LatchLoadsTheAddressedByte : Prop :=
  ∀ s : State, Sound s → ∃ t, step s = .next t ∧
    t.l = Memory.read s.cfg s.rom (s.v.toNat * 256 + s.h.toNat) ∧ portQ t = tableByte s.cfg s.h.toNat s.v.toNat

/-- 10_state.md section 4 and 60_exceptions.md section 1, rules R28 and R102: the states with a successor are the machines
of the block, whatever their registers hold, and no run of such a machine is refused. That the step itself refuses every
other state is the model's choice (log entry 10). -/
def Obligations.EveryMachineStateRunsForever : Prop :=
  (∀ s : State, (∃ t, step s = .next t) ↔ Sound s) ∧ (∀ (n : Nat) (s : State), Sound s → SafeRun n s)

/-- 60_exceptions.md section 1, rule R100, its clauses (c) to (h) being the spec's own decision D25 (92_eei_decisions.md): a
configuration that fails `ValidCfg` has one error, which names one clause that fails; the table writer answers it before
any byte, nothing can be loaded, no machine is built, and the step refuses with it. That the step refuses, whatever the
ROM holds and before it is looked at, is the model's choice (log entry 10); which clause is named where several fail is a
free value (log entry 7). -/
def Obligations.InvalidConfigurationIsRefused : Prop :=
  ∀ c : Cfg, c.valid = false → ∃ k : Clause, c.holds k = false ∧
    writeTable c = .error (.configurationError k) ∧
    (∀ bytes, Memory.load c bytes = .error (.configurationError k)) ∧
    (∀ h v l : Byte, buildMachine c h v l = .error (.configurationError k)) ∧
    ∀ s : State, s.cfg = c → step s = .refused (.configurationError k)

/-- 70_reset_and_hazards.md sections 1 and 2, rules R114 and R126: from every power-up state the first edge runs the
operation of the drawn latch; the lines of cycle 0 are that latch; a latch with both reset bits 0 clears both counters;
and the drawn latch can select any operation. -/
def Obligations.FirstEdgeRunsTheDrawnLatch : Prop :=
  ∀ c : Cfg, c.valid = true →
    (∀ h v l : Byte, step (State.powerUp c h v l) = exec (decodeWord c.layout l) (State.powerUp c h v l) ∧
      portQ (State.powerUp c h v l) = l ∧
      (bitOf c.layout .hresetN l = false → bitOf c.layout .vresetN l = false →
        step (State.powerUp c h v l) =
          .next (State.powerUp c 0#8 0#8 (tableByte c h.toNat v.toNat)))) ∧
    ∀ i : Instr, ∃ l : Byte, decodeWord c.layout l = i

/-- 41_clock_step.md section 3 and 60_exceptions.md section 2, rules R99 and R104 to R106: after an edge each present
signal's line carries the table's value at the address before it, and no line carries an absent signal. -/
def Obligations.LinesCarryTheAddressedSignals : Prop :=
  ∀ s : State, Sound s → ∃ t, step s = .next t ∧
    (∀ sig, s.cfg.layout.present sig = false → line t sig = none) ∧
    (∀ sig, s.cfg.layout.present sig = true →
      line t sig = some ((signals s.cfg s.h.toNat s.v.toNat).get sig)) ∧
    (s.cfg.layout.present .blankStart = true →
      (line t .blankStart = some true ↔ s.h.toNat = s.cfg.hbiStart ∧ s.v.toNat ≤ s.cfg.vbiStart)) ∧
    (s.cfg.layout.present .blankEnd = true →
      (line t .blankEnd = some true ↔ s.h.toNat + s.cfg.irqRecovery = s.cfg.hbiEnd ∧
        (s.v.toNat < s.cfg.vbiStart ∨ s.v.toNat + 1 = s.cfg.vbiEnd))) ∧
    (s.cfg.layout.present .vblankPulse = true →
      (line t .vblankPulse = some true ↔
        s.cfg.vbiStart ≤ s.v.toNat ∧ s.v.toNat < s.cfg.vbiStart + s.cfg.vpulseWidth))

/-- 60_exceptions.md section 2, rule R105: on every line where the blank-ending strobe fires (a display line, or the last
vertical-blank line) it is on the lines `IRQ_RECOVERY` cycles before `HRESET_N` goes to 0 on them. With `HBI_END = 256`
`HRESET_N` never does in a main row (70_reset_and_hazards.md section 2). -/
def Obligations.BlankEndLeadsTheReset : Prop :=
  ∀ s : State, Sound s → s.cfg.hbiEnd ≤ 255 → s.cfg.layout.present .blankEnd = true → Selects s .count →
    s.h.toNat + s.cfg.irqRecovery = s.cfg.hbiEnd →
    (s.v.toNat < s.cfg.vbiStart ∨ s.v.toNat + 1 = s.cfg.vbiEnd) →
    (∃ t, Runs 1 s t ∧ line t .blankEnd = some true) ∧
    (∀ k, 1 ≤ k → k ≤ s.cfg.irqRecovery → ∃ t, Runs k s t ∧ line t .hresetN = some true) ∧
    ∃ t, Runs (s.cfg.irqRecovery + 1) s t ∧ line t .hresetN = some false

/-! ## Invariants -/

/-- 10_state.md and 20_memory.md (rules R18, R20, R89): every step of a settled machine leaves a settled machine: a valid
configuration, the ROM in canonical form and holding the table, the latch a byte of the table. -/
def Obligations.SettledLatchInvariant : Prop :=
  ∀ s t : State, Settled s → step s = .next t → Settled t

/-- The reset state is settled. Its configuration and its register values are the model's choices (log entries 3 and 4);
that a ROM is programmed with the image beforehand is 20_memory.md section 2. -/
def Obligations.ResetIsSettled : Prop := Settled State.reset

/-- 30_encoding.md sections 2 and 3, rules R52 and R55: one edge settles any machine; a settled latch never selects `VCLR`
and has 0 at every bit that no signal maps to. -/
def Obligations.SettledLatchIsNeverVclr : Prop :=
  (∀ s t : State, Memory.wf s.cfg s.rom → step s = .next t → Settled t) ∧
  (∀ s : State, Settled s → ¬ Selects s .vclr ∧
    ∀ n : Nat, (∀ sig i, s.cfg.layout.pos sig = some i → i.val ≠ n) → s.l.getLsbD n = false)

/-- 70_reset_and_hazards.md sections 1 and 2, rules R115, R118, R120 and R123, for every valid configuration with
`HBI_END ≤ 254` and `VBI_END ≤ 255` and every policy: the frame's states are closed under the step. The frame's states are
written out in `OnFrame`. -/
def Obligations.FrameIsClosedUnderTheStep : Prop :=
  ∀ s t : State, OnFrame s → step s = .next t → OnFrame t

/-- 70_reset_and_hazards.md section 1, rule R116: the frame anchor is on the frame. -/
def Obligations.FrameAnchorIsOnTheFrame : Prop :=
  ∀ c : Cfg, c.valid = true → Regular c → OnFrame (frameAnchor c)

/-- 70_reset_and_hazards.md section 1, rule R116: the frame has exactly one state at address `(0, 0)` with both reset bits
1. The anchor is such a state, under every layout and policy; any such state has the anchor's latch, which is `0x30` under
`REF` unless the policy is `SUSTAINED`. -/
def Obligations.FrameAnchorIsTheOnlyOne : Prop :=
  (∀ c : Cfg, c.valid = true → Regular c →
    OnFrame (frameAnchor c) ∧ Selects (frameAnchor c) .count ∧
      bitOf c.layout .hresetN (anchorLatch c) = true ∧ bitOf c.layout .vresetN (anchorLatch c) = true) ∧
  (∀ s : State, OnFrame s → s.h = 0#8 → s.v = 0#8 → Selects s .count → s.l = anchorLatch s.cfg) ∧
  (∀ c : Cfg, c.valid = true → Regular c → c.layout = Layout.ref → c.fillerPolicy ≠ .sustained →
    anchorLatch c = 0x30#8)

/-! ## Lines, frames and synchronisation -/

/-- 70_reset_and_hazards.md section 2, rule R119 under `EXACT`: a main row lasts `HBI_END + 2` cycles, columns `0` to
`HBI_END + 1`, the latch one column behind. -/
def Obligations.LineLengthUnderExact : Prop :=
  ∀ s : State, Sound s → s.cfg.hbiEnd ≤ 254 → s.cfg.hresetPolicy = .exact → s.h = 0#8 →
    s.v.toNat < s.cfg.vbiEnd → Selects s .count →
    (∀ k, 1 ≤ k → k ≤ s.cfg.hbiEnd + 1 →
      ∃ t, Runs k s t ∧ At t k s.v.toNat (tableByte s.cfg (k - 1) s.v.toNat)) ∧
    ∃ t, Runs (s.cfg.hbiEnd + 2) s t ∧
      At t 0 ((s.v.toNat + 1) % 256) (tableByte s.cfg (s.cfg.hbiEnd + 1) s.v.toNat)

/-- 70_reset_and_hazards.md section 2, rules R119 and R125 under `TAIL`: a main row lasts `HBI_END + 3` cycles, and column
0 is presented a second time at its end. -/
def Obligations.LineLengthUnderTail : Prop :=
  ∀ s : State, Sound s → s.cfg.hbiEnd ≤ 254 → s.cfg.hresetPolicy = .tail → s.h = 0#8 →
    s.v.toNat < s.cfg.vbiEnd → Selects s .count →
    (∀ k, 1 ≤ k → k ≤ s.cfg.hbiEnd + 1 →
      ∃ t, Runs k s t ∧ At t k s.v.toNat (tableByte s.cfg (k - 1) s.v.toNat)) ∧
    (∃ t, Runs (s.cfg.hbiEnd + 2) s t ∧
      At t 0 s.v.toNat (tableByte s.cfg (s.cfg.hbiEnd + 1) s.v.toNat)) ∧
    ∃ t, Runs (s.cfg.hbiEnd + 3) s t ∧ At t 0 ((s.v.toNat + 1) % 256) (tableByte s.cfg 0 s.v.toNat)

/-- 70_reset_and_hazards.md section 2, rule R120, first row of its table: from the frame anchor under `EXACT` with
`SINGLE_PULSE` or `PER_LINE` the state comes back after `(VBI_END + 1)·(HBI_END + 2)` edges and not before. -/
def Obligations.FramePeriodExactPulse : Prop :=
  ∀ s : State, Sound s → Regular s.cfg → s.cfg.hresetPolicy = .exact → s.cfg.fillerPolicy ≠ .sustained →
    At s 0 0 (anchorLatch s.cfg) →
    Runs ((s.cfg.vbiEnd + 1) * (s.cfg.hbiEnd + 2)) s s ∧
    ∀ k, 0 < k → k < (s.cfg.vbiEnd + 1) * (s.cfg.hbiEnd + 2) → ¬ Runs k s s

/-- 70_reset_and_hazards.md section 2, rule R120, second row: under `TAIL` with `SINGLE_PULSE` or `PER_LINE` the period is
`VBI_END·(HBI_END + 3) + HBI_END + 2`. -/
def Obligations.FramePeriodTailPulse : Prop :=
  ∀ s : State, Sound s → Regular s.cfg → s.cfg.hresetPolicy = .tail → s.cfg.fillerPolicy ≠ .sustained →
    At s 0 0 (anchorLatch s.cfg) →
    Runs (s.cfg.vbiEnd * (s.cfg.hbiEnd + 3) + s.cfg.hbiEnd + 2) s s ∧
    ∀ k, 0 < k → k < s.cfg.vbiEnd * (s.cfg.hbiEnd + 3) + s.cfg.hbiEnd + 2 → ¬ Runs k s s

/-- 70_reset_and_hazards.md section 2, rule R120, third row: under `EXACT` with `SUSTAINED` the period is
`VBI_END·(HBI_END + 2) + 3`. -/
def Obligations.FramePeriodExactSustained : Prop :=
  ∀ s : State, Sound s → Regular s.cfg → s.cfg.hresetPolicy = .exact → s.cfg.fillerPolicy = .sustained →
    At s 0 0 (anchorLatch s.cfg) →
    Runs (s.cfg.vbiEnd * (s.cfg.hbiEnd + 2) + 3) s s ∧
    ∀ k, 0 < k → k < s.cfg.vbiEnd * (s.cfg.hbiEnd + 2) + 3 → ¬ Runs k s s

/-- 70_reset_and_hazards.md section 2, rule R120, fourth row: under `TAIL` with `SUSTAINED` the period is
`VBI_END·(HBI_END + 3) + 3`. -/
def Obligations.FramePeriodTailSustained : Prop :=
  ∀ s : State, Sound s → Regular s.cfg → s.cfg.hresetPolicy = .tail → s.cfg.fillerPolicy = .sustained →
    At s 0 0 (anchorLatch s.cfg) →
    Runs (s.cfg.vbiEnd * (s.cfg.hbiEnd + 3) + 3) s s ∧
    ∀ k, 0 < k → k < s.cfg.vbiEnd * (s.cfg.hbiEnd + 3) + 3 → ¬ Runs k s s

/-- 70_reset_and_hazards.md section 2, rule R123: from the frame anchor the addresses presented are exactly those of
normal operation. -/
def Obligations.FramePresentsItsAddresses : Prop :=
  ∀ c : Cfg, c.valid = true → Regular c →
    (∀ x < 256, ∀ y < 256, frameAddress c x y = true →
      ∃ k t, Runs k (frameAnchor c) t ∧ t.h.toNat = x ∧ t.v.toNat = y) ∧
    ∀ k t, Runs k (frameAnchor c) t → frameAddress c t.h.toNat t.v.toNat = true

/-- 70_reset_and_hazards.md section 1, rule R115 under `SINGLE_PULSE` (with the spec's decision D3): every machine with
`HBI_END ≤ 254` and `VBI_END ≤ 255` reaches the frame within `256·(256 − VBI_END) + 256` edges (R121 says that the bounds
fail at `HBI_END = 255`). The spec gives the bound for the configurations it enumerated; that it
holds for all with `HBI_END ≤ 254` and `VBI_END ≤ 255` is this statement's. -/
def Obligations.SynchronisesUnderSinglePulse : Prop :=
  ∀ s : State, Sound s → Regular s.cfg → s.cfg.fillerPolicy = .singlePulse →
    ∃ n ≤ 256 * (256 - s.cfg.vbiEnd) + 256, ∃ t, Runs n s t ∧ OnFrame t

/-- As `SynchronisesUnderSinglePulse`, with the same bounds on `HBI_END` and `VBI_END`, under `PER_LINE`: within 258
edges. -/
def Obligations.SynchronisesUnderPerLine : Prop :=
  ∀ s : State, Sound s → Regular s.cfg → s.cfg.fillerPolicy = .perLine →
    ∃ n ≤ 258, ∃ t, Runs n s t ∧ OnFrame t

/-- As `SynchronisesUnderSinglePulse`, with the same bounds on `HBI_END` and `VBI_END`, under `SUSTAINED`: within 257
edges. -/
def Obligations.SynchronisesUnderSustained : Prop :=
  ∀ s : State, Sound s → Regular s.cfg → s.cfg.fillerPolicy = .sustained →
    ∃ n ≤ 257, ∃ t, Runs n s t ∧ OnFrame t

/-- 70_reset_and_hazards.md section 2, rule R121 with `HBI_END = 255`: a line whose successor is a main row lasts 257
cycles and advances `V` by two, once by wrap and once by release. -/
def Obligations.ResetColumn255CountsTwice : Prop :=
  ∀ s : State, Sound s → s.cfg.hbiEnd = 255 → s.h = 0#8 → s.v.toNat + 1 < s.cfg.vbiEnd → Selects s .count →
    (∃ t, Runs 255 s t ∧ At t 255 s.v.toNat (tableByte s.cfg 254 s.v.toNat)) ∧
    (∃ t, Runs 256 s t ∧ At t 0 (s.v.toNat + 1) (tableByte s.cfg 255 s.v.toNat)) ∧
    ∃ t, Runs 257 s t ∧ At t 0 ((s.v.toNat + 2) % 256) (tableByte s.cfg 0 (s.v.toNat + 1))

/-- 70_reset_and_hazards.md section 2, rule R121 with `HBI_END = 256`, under `SINGLE_PULSE` or `PER_LINE`, or with no filler
rows (rule R122): no table byte clears a counter, so the address counts through all 65536 addresses. -/
def Obligations.NoResetColumnCountsEveryAddress : Prop :=
  ∀ s : State, Sound s → s.cfg.hbiEnd = 256 → (s.cfg.fillerPolicy ≠ .sustained ∨ s.cfg.vbiEnd = 256) →
    Selects s .count →
    ∀ n, ∃ t, Runs n s t ∧ (romAddr t).toNat = ((romAddr s).toNat + n) % 65536

/-- 70_reset_and_hazards.md section 2, rule R121 with `HBI_END = 256` under `SUSTAINED`, where there are filler rows: from
`(0, 0)` the address counts through the main rows and one address into the first filler row; the filler bytes then clear
both counters, and the state comes back after `VBI_END·256 + 3` edges and not before. -/
def Obligations.NoResetColumnUnderSustained : Prop :=
  ∀ s : State, Sound s → s.cfg.hbiEnd = 256 → s.cfg.fillerPolicy = .sustained → s.cfg.vbiEnd ≤ 255 →
    At s 0 0 (tableByte s.cfg 0 0) →
    (∀ n ≤ s.cfg.vbiEnd * 256 + 1, ∃ t, Runs n s t ∧ (romAddr t).toNat = n) ∧
    (∃ t, Runs (s.cfg.vbiEnd * 256 + 2) s t ∧ At t 0 0 0#8) ∧
    Runs (s.cfg.vbiEnd * 256 + 3) s s ∧
    ∀ k, 0 < k → k < s.cfg.vbiEnd * 256 + 3 → ¬ Runs k s s

/-- 70_reset_and_hazards.md section 2, rule R122 with `VBI_END = 256`: there are no filler rows and the frame is 256 main
rows. -/
def Obligations.NoFillerRowsFrameIs256Lines : Prop :=
  ∀ s : State, Sound s → s.cfg.hbiEnd ≤ 254 → s.cfg.vbiEnd = 256 →
    At s 0 0 (tableByte s.cfg (rowEndColumn s.cfg) 255) →
    Runs (256 * lineLength s.cfg) s s ∧ ∀ k, 0 < k → k < 256 * lineLength s.cfg → ¬ Runs k s s
end

