-- ==== Sys2Proof/Laws/Word.lean ====
section
/-! SUPPORT. Bits of a packed byte, the field of an operation, and what validity says of a configuration. -/

namespace Sys2Proof

/-- Every signal is in the list of all signals. -/
theorem Signal.mem_all (sig : Signal) : sig ∈ Signal.all := by cases sig <;> decide

/-- Bit `n` of one signal's contribution: its value, at its own position only. -/
theorem bitAt_getLsbD (p : Option (Fin 8)) (b : Bool) (n : Nat) :
    (bitAt p b).getLsbD n = (b && decide (p.map Fin.val = some n)) := by
  cases p with
  | none => simp [bitAt]
  | some i =>
    cases b with
    | false => simp [bitAt]
    | true =>
      have hi := i.isLt
      by_cases h : i.val = n
      · subst h; simp [bitAt]
      · by_cases h2 : i.val < n
        · have : n - i.val ≠ 0 := by omega
          simp [bitAt, h, this]
        · have : n < i.val := by omega
          simp [bitAt, h, this]

/-- Bit `n` of a packed byte: some signal with position `n` is 1 (R50). -/
theorem pack_getLsbD (lay : Layout) (r : Signals) (n : Nat) :
    (pack lay r).getLsbD n =
      Signal.all.any fun sig => r.get sig && decide ((lay.pos sig).map Fin.val = some n) := by
  unfold pack
  induction Signal.all with
  | nil => simp
  | cons sig rest ih => simp [bitAt_getLsbD, ih]

/-- Extraction at a present signal is the bit at its position (R51). -/
theorem bitOf_of_pos {lay : Layout} {sig : Signal} {i : Fin 8} (h : lay.pos sig = some i) (w : Byte) :
    bitOf lay sig w = w.getLsbD i.val := by
  simp [bitOf, h]

/-- Extraction at an absent signal is the free value (R51). -/
theorem bitOf_of_absent {lay : Layout} {sig : Signal} (h : lay.pos sig = none) (w : Byte) :
    bitOf lay sig w = Config.absentBit sig w := by
  simp [bitOf, h]

/-- The operation and its pair of reset bits determine each other (R54). -/
theorem opOfBits_eq_iff (hr vr : Bool) (i : Instr) : opOfBits hr vr = i ↔ i.resetBits = (hr, vr) := by
  cases hr <;> cases vr <;> cases i <;> decide

/-- The operation of a word, by its pair of reset bits (R54). -/
theorem decodeWord_eq_iff (lay : Layout) (w : Byte) (i : Instr) :
    decodeWord lay w = i ↔ i.resetBits = (bitOf lay .hresetN w, bitOf lay .vresetN w) :=
  opOfBits_eq_iff _ _ _

/-- What it takes for bytes to decode: there is exactly one of them (R56). -/
theorem decode_eq_ok_iff (lay : Layout) (bytes : List Byte) (i : Instr) :
    decode lay bytes = .ok i ↔ ∃ w, bytes = [w] ∧ decodeWord lay w = i := by
  match bytes with
  | [] => simp [decode]
  | [w] => simp [decode]
  | _ :: _ :: _ => simp [decode]

/-- What the layout check says (clause (e) of R8). -/
theorem Layout.injective_iff (lay : Layout) :
    lay.injective = true ↔ ∀ s t i, lay.pos s = some i → lay.pos t = some i → s = t := by
  unfold Layout.injective
  simp only [List.all_eq_true, Bool.or_eq_true, decide_eq_true_eq]
  constructor
  · intro h s t i hs ht
    rcases h s (Signal.mem_all s) t (Signal.mem_all t) with (h | h) | h
    · exact h
    · simp [hs] at h
    · simp [hs, ht] at h
  · intro h s _ t _
    cases hs : lay.pos s with
    | none => simp
    | some i =>
      by_cases ht : lay.pos t = some i
      · exact Or.inl (Or.inl (h s t i hs ht))
      · exact Or.inr (fun e => ht e.symm)

/-- A layout carries the operation field exactly when both reset signals have bits of their own (R53). -/
theorem Layout.carriesOp_iff (lay : Layout) :
    lay.carriesOp = true ↔ ∃ p q, lay.hresetN = some p ∧ lay.vresetN = some q ∧ p ≠ q := by
  unfold Layout.carriesOp
  cases lay.hresetN <;> cases lay.vresetN <;> simp

/-- `ValidCfg` is the conjunction of the clauses (R8). -/
theorem Cfg.valid_iff_holds (c : Cfg) : c.valid = true ↔ ∀ k, c.holds k = true := by
  unfold Cfg.valid Cfg.failedClauses
  rw [List.isEmpty_iff, List.filter_eq_nil_iff]
  constructor
  · intro h k
    have := h k (by cases k <;> decide)
    simpa using this
  · intro h k _
    simp [h k]

/-- The clauses that fail are exactly those listed (R8). -/
theorem Cfg.mem_failedClauses (c : Cfg) (k : Clause) : k ∈ c.failedClauses ↔ c.holds k = false := by
  unfold Cfg.failedClauses
  have : k ∈ Clause.all := by cases k <;> decide
  simp [this]

/-- What validity says, clause by clause (R8). -/
structure Cfg.Facts (c : Cfg) : Prop where
  hbi : c.hbiStart < c.hsyStart
  hsy : c.hsyStart < c.hsyEnd
  hbp : c.hsyEnd < c.hbiEnd
  hend : c.hbiEnd ≤ 256
  vbi : c.vbiStart < c.vsyStart
  vsy : c.vsyStart < c.vsyEnd
  vbp : c.vsyEnd < c.vbiEnd
  vend : c.vbiEnd ≤ 256
  irq : 1 ≤ c.irqRecovery
  irqFits : c.hsyEnd + c.irqRecovery ≤ c.hbiEnd
  pulse : c.vbiStart + c.vpulseWidth ≤ c.vbiEnd
  inj : ∀ s t i, c.layout.pos s = some i → c.layout.pos t = some i → s = t
  hres : ∃ i, c.layout.hresetN = some i
  vres : ∃ i, c.layout.vresetN = some i
  hpol : c.hresetPolicy = .exact ∨ c.hresetPolicy = .tail
  fpol : c.fillerPolicy = .singlePulse ∨ c.fillerPolicy = .perLine ∨ c.fillerPolicy = .sustained

/-- A valid configuration has every fact of R8. -/
theorem Cfg.facts {c : Cfg} (hv : c.valid = true) : c.Facts := by
  rw [Cfg.valid_iff_holds] at hv
  have ha := hv .a
  have hb := hv .b
  have hc := hv .c
  have hd := hv .d
  have he := hv .e
  have hf := hv .f
  have hh := hv .h
  simp only [Cfg.holds, decide_eq_true_eq, Bool.and_eq_true] at ha hb hc hd he hf hh
  obtain ⟨a1, a2, a3, a4⟩ := ha
  obtain ⟨b1, b2, b3, b4⟩ := hb
  exact {
    hbi := a1, hsy := a2, hbp := a3, hend := a4
    vbi := b1, vsy := b2, vbp := b3, vend := b4
    irq := hc.1, irqFits := hc.2, pulse := hd
    inj := (Layout.injective_iff _).1 he
    hres := Option.isSome_iff_exists.1 hf.1
    vres := Option.isSome_iff_exists.1 hf.2
    hpol := by
      revert hh
      cases c.hresetPolicy <;> simp [HResetPolicy.listed]
    fpol := by
      revert hh
      cases c.fillerPolicy <;> simp [FillerPolicy.listed] }

/-- A valid layout carries the operation field. -/
theorem Cfg.carriesOp {c : Cfg} (hv : c.valid = true) : c.layout.carriesOp = true := by
  have hF := Cfg.facts hv
  obtain ⟨p, hp⟩ := hF.hres
  obtain ⟨q, hq⟩ := hF.vres
  refine (Layout.carriesOp_iff _).2 ⟨p, q, hp, hq, ?_⟩
  intro e
  subst e
  exact absurd (hF.inj .hresetN .vresetN p hp hq) (by decide)

end Sys2Proof
end

