-- ==== Sys2Proof/Laws/Memory.lean ====
section
/-! SUPPORT. What the ROM operations can do: a read, the image check, loading and the canonical form. -/

namespace Sys2Proof.Machine

/-- A read gives a listed byte or the image's byte (R30). -/
theorem Memory.read_eq (c : Cfg) (m : Memory) (a : Nat) :
    Memory.read c m a = (m.lookup a).getD (imageByte c a) := by
  unfold Memory.read
  cases m.lookup a <;> rfl

/-- The programmed image reads as the table everywhere (R32). -/
@[simp] theorem Memory.read_nil (c : Cfg) (a : Nat) : Memory.read c [] a = imageByte c a := rfl

/-- The programmed image passes the image check. -/
@[simp] theorem Memory.isImage_nil (c : Cfg) : Memory.isImage c [] = true := rfl

/-- The programmed image is in canonical form. -/
@[simp] theorem Memory.wf_nil (c : Cfg) : Memory.wf c [] := by simp [Memory.wf]

/-- An address that no cell lists is not found. -/
theorem Memory.lookup_eq_none {m : Memory} {a : Nat} (h : ∀ cell ∈ m, cell.1 ≠ a) : m.lookup a = none := by
  induction m with
  | nil => rfl
  | cons cell rest ih =>
    have h1 : (a == cell.1) = false := by
      simpa using fun e : a = cell.1 => h cell (by simp) e.symm
    rw [show cell = (cell.1, cell.2) from rfl, List.lookup_cons, h1]
    exact ih fun d hd => h d (by simp [hd])

/-- A ROM that passes the image check reads as the table at every address (R32). -/
theorem Memory.read_of_isImage {c : Cfg} {m : Memory} (h : Memory.isImage c m = true) (a : Nat) :
    Memory.read c m a = imageByte c a := by
  by_cases hm : ∃ cell ∈ m, cell.1 = a
  · obtain ⟨cell, hmem, rfl⟩ := hm
    have := List.all_eq_true.1 h cell hmem
    simp only [Bool.and_eq_true, decide_eq_true_eq] at this
    exact this.2
  · have hn : m.lookup a = none := Memory.lookup_eq_none fun cell hmem e => hm ⟨cell, hmem, e⟩
    rw [Memory.read_eq, hn]
    rfl

/-- A ROM that reads other than the table somewhere fails the image check (R101). -/
theorem Memory.isImage_false_of_read {c : Cfg} {m : Memory} {a : Nat}
    (h : Memory.read c m a ≠ imageByte c a) : Memory.isImage c m = false := by
  cases hi : Memory.isImage c m with
  | false => rfl
  | true => exact absurd (Memory.read_of_isImage hi a) h

/-- A configuration has no error exactly when it is valid (R100). -/
theorem configurationError_eq_none_iff (c : Cfg) : configurationError c = none ↔ c.valid = true := by
  unfold configurationError Cfg.valid
  split <;> simp_all

/-- The clause that the error records fails (R100). -/
theorem holds_of_configurationError {c : Cfg} {k : Clause} (h : configurationError c = some k) :
    c.holds k = false := by
  rw [← Cfg.mem_failedClauses]
  unfold configurationError at h
  split at h
  · cases h
  · next e => cases h; simp [e]
  · next k₁ k₂ rest e =>
    cases h
    have hlt : Config.reportedClause c % (rest.length + 2) < (k₁ :: k₂ :: rest).length :=
      Nat.mod_lt _ (by omega)
    rw [e, List.getD_eq_getElem _ _ hlt]
    exact List.getElem_mem hlt

/-- An invalid configuration has an error, which records a clause that fails (R100). -/
theorem configurationError_of_invalid {c : Cfg} (h : c.valid = false) :
    ∃ k, configurationError c = some k ∧ c.holds k = false := by
  cases e : configurationError c with
  | none => simp [(configurationError_eq_none_iff c).1 e] at h
  | some k => exact ⟨k, rfl, holds_of_configurationError e⟩

/-- Loading succeeds exactly for a valid configuration and 65536 bytes, and gives the listed differences from the image
(R33, R36, R100). -/
theorem Memory.load_eq_ok_iff (c : Cfg) (bytes : List Byte) (m : Memory) :
    Memory.load c bytes = .ok m ↔ c.valid = true ∧ bytes.length = romSize ∧ m = Memory.ofBytes c bytes := by
  rw [← configurationError_eq_none_iff]
  unfold Memory.load
  cases configurationError c with
  | some k => simp
  | none =>
    by_cases hl : bytes.length = romSize
    · simp [hl, eq_comm]
    · simp [hl]

/-- The cells of a byte list have rising addresses. -/
theorem Memory.zipIdx_rising (bytes : List Byte) (k : Nat) :
    ((bytes.zipIdx k).map fun p => (p.2, p.1)).Pairwise (fun p q : Host.Cell => p.1 < q.1) := by
  induction bytes generalizing k with
  | nil => simp
  | cons b rest ih =>
    simp only [List.zipIdx_cons, List.map_cons, List.pairwise_cons]
    refine ⟨?_, ih (k + 1)⟩
    intro cell hc
    obtain ⟨p, hp, rfl⟩ := List.mem_map.1 hc
    have := List.le_snd_of_mem_zipIdx hp
    exact this

/-- Loading gives a ROM in canonical form: it is the one operation that makes a ROM's content. -/
theorem Memory.load_wf {c : Cfg} {bytes : List Byte} {m : Memory} (h : Memory.load c bytes = .ok m) :
    Memory.wf c m := by
  obtain ⟨-, hlen, rfl⟩ := (Memory.load_eq_ok_iff c bytes m).1 h
  refine ⟨(Memory.zipIdx_rising bytes 0).filter _, ?_⟩
  intro cell hc
  obtain ⟨hmem, hne⟩ := List.mem_filter.1 hc
  obtain ⟨p, hp, rfl⟩ := List.mem_map.1 hmem
  have := List.snd_lt_of_mem_zipIdx hp
  refine ⟨by simpa [hlen] using this, by simpa using hne⟩

/-- The address of `(x, y)` holds the table's byte of `(x, y)` (R31, R32). -/
theorem imageByte_of_pair (c : Cfg) {x : Nat} (y : Nat) (hx : x < 256) :
    imageByte c (y * 256 + x) = tableByte c x y := by
  unfold imageByte
  rw [show (y * 256 + x) % 256 = x by omega, show (y * 256 + x) / 256 = y by omega]

/-- The address on the ROM's lines (R31). -/
theorem romAddr_toNat (s : State) : (romAddr s).toNat = s.v.toNat * 256 + s.h.toNat := by
  have hh : s.h.toNat < 2 ^ 8 := s.h.isLt
  unfold romAddr
  rw [BitVec.toNat_append, ← Nat.shiftLeft_add_eq_or_of_lt hh, Nat.shiftLeft_eq]

/-- The ROM data of a ROM that holds the table: `T(H, V)` (R88). -/
theorem romData_of_isImage {s : State} (h : Memory.isImage s.cfg s.rom = true) :
    romData s = tableByte s.cfg s.h.toNat s.v.toNat := by
  unfold romData
  rw [Memory.read_of_isImage h, romAddr_toNat, imageByte_of_pair _ _ s.h.isLt]

/-- An increment, as a number (R96, R98). -/
theorem countUp_toNat (b : Byte) : (countUp b).toNat = (b.toNat + 1) % 256 := by
  simp [countUp, BitVec.toNat_add]

/-- A clear, as a number (R96, R98). -/
@[simp] theorem cleared_toNat : cleared.toNat = 0 := rfl

end Sys2Proof.Machine
end

