-- ==== Sys2Proof/Laws/PerInstr.lean ====
section
/-! SUPPORT. The family `tableRow`: each operation's word under `REF` is its row of spec/opcode_table.json. -/

namespace Sys2Proof.Laws.tableRow

/-- The row's match value, as the table writes it. -/
def rowMatch : Instr → Nat
  | .count => 0x30
  | .hclr => 0x20
  | .vclr => 0x10
  | .hvclr => 0x00

/-- Under `REF` the operation's word is the row's match value, within the mask `0x30`, and it decodes to the
operation. -/
def Statement (i : Instr) : Prop :=
  i.wellFormed Layout.ref = true ∧ opMask Layout.ref = 0x30#8 ∧
    encode Layout.ref i = [BitVec.ofNat 8 (rowMatch i)] ∧ decodeTableWord 8 (rowMatch i) = some i

theorem count : Statement .count := by unfold Statement; decide
theorem hclr : Statement .hclr := by unfold Statement; decide
theorem vclr : Statement .vclr := by unfold Statement; decide
theorem hvclr : Statement .hvclr := by unfold Statement; decide

end Sys2Proof.Laws.tableRow
end

