-- ==== Sys2Proof/Laws/State.lean ====
section
/-! SUPPORT. What each update of the state does to each field. -/

namespace Sys2Proof.Machine

@[simp] theorem State.edge_cfg (s : State) (h v l : Byte) : (s.edge h v l).cfg = s.cfg := rfl
@[simp] theorem State.edge_rom (s : State) (h v l : Byte) : (s.edge h v l).rom = s.rom := rfl
@[simp] theorem State.edge_h (s : State) (h v l : Byte) : (s.edge h v l).h = h := rfl
@[simp] theorem State.edge_v (s : State) (h v l : Byte) : (s.edge h v l).v = v := rfl
@[simp] theorem State.edge_l (s : State) (h v l : Byte) : (s.edge h v l).l = l := rfl

@[simp] theorem State.setLatch_cfg (s : State) (w : Byte) : (s.setLatch w).cfg = s.cfg := rfl
@[simp] theorem State.setLatch_rom (s : State) (w : Byte) : (s.setLatch w).rom = s.rom := rfl
@[simp] theorem State.setLatch_h (s : State) (w : Byte) : (s.setLatch w).h = s.h := rfl
@[simp] theorem State.setLatch_v (s : State) (w : Byte) : (s.setLatch w).v = s.v := rfl
@[simp] theorem State.setLatch_l (s : State) (w : Byte) : (s.setLatch w).l = w := rfl

@[simp] theorem State.powerUp_cfg (c : Cfg) (h v l : Byte) : (State.powerUp c h v l).cfg = c := rfl
@[simp] theorem State.powerUp_rom (c : Cfg) (h v l : Byte) : (State.powerUp c h v l).rom = [] := rfl
@[simp] theorem State.powerUp_h (c : Cfg) (h v l : Byte) : (State.powerUp c h v l).h = h := rfl
@[simp] theorem State.powerUp_v (c : Cfg) (h v l : Byte) : (State.powerUp c h v l).v = v := rfl
@[simp] theorem State.powerUp_l (c : Cfg) (h v l : Byte) : (State.powerUp c h v l).l = l := rfl

/-- Two edges on one state: the later one wins on every register. -/
@[simp] theorem State.edge_edge (s : State) (h v l h' v' l' : Byte) :
    (s.edge h v l).edge h' v' l' = s.edge h' v' l' := rfl

/-- States that agree on every field are equal. -/
theorem State.eq_of_fields {s t : State} (hc : s.cfg = t.cfg) (hr : s.rom = t.rom) (hh : s.h = t.h)
    (hv : s.v = t.v) (hl : s.l = t.l) : s = t := by
  cases s; cases t; simp_all

end Sys2Proof.Machine
end

