-- ==== Sys2Proof/Laws/Step.lean ====
section
/-! SUPPORT. What one edge can do, said once: which states step, which are refused, and the form of the next state. -/

namespace Sys2Proof.Machine

/-- A state is not refused exactly when it is a machine of the block (R8, R101). -/
theorem machineRefusal_eq_none_iff (s : State) : machineRefusal s = none ↔ Sound s := by
  unfold machineRefusal Sound
  rw [← configurationError_eq_none_iff]
  cases configurationError s.cfg <;> cases Memory.isImage s.cfg s.rom <;> simp

/-- The table writer emits the table for a valid configuration and for no other (R100). -/
theorem writeTable_eq_ok_iff (c : Cfg) (bytes : List Byte) :
    writeTable c = .ok bytes ↔ c.valid = true ∧ bytes = emitTable c := by
  rw [← configurationError_eq_none_iff]
  unfold writeTable
  cases configurationError c <;> simp [eq_comm]

/-- A machine is built exactly where the writer and the load succeed, and differs from the power-up state in its ROM
alone (R117). -/
theorem buildMachine_eq_ok_iff (c : Cfg) (h v l : Byte) (s : State) :
    buildMachine c h v l = .ok s ↔
      ∃ bytes m, writeTable c = .ok bytes ∧ Memory.load c bytes = .ok m ∧
        s = { State.powerUp c h v l with rom := m } := by
  unfold buildMachine
  cases hw : writeTable c with
  | error r => simp
  | ok bytes =>
    cases hl : Memory.load c bytes with
    | error r => simp [hl]
    | ok m => simp [hl, eq_comm]

/-- Every operation answers a next state, whatever the state. -/
theorem exec_eq_next (i : Instr) (s : State) : ∃ h v, exec i s = .next (s.edge h v (romData s)) := by
  cases i
  · exact ⟨_, _, rfl⟩
  · exact ⟨_, _, rfl⟩
  · exact ⟨_, _, rfl⟩
  · exact ⟨_, _, rfl⟩

/-- The step of a machine of the block is the meaning of the operation its latch selects. -/
theorem step_of_sound {s : State} (h : Sound s) : step s = exec (decodeWord s.cfg.layout s.l) s := by
  unfold step
  rw [(machineRefusal_eq_none_iff s).2 h]
  rfl

/-- A step that answers a next state: the state is a machine, and the next one differs in the registers alone, the latch
holding the ROM data. -/
theorem step_next_inv {s t : State} (h : step s = .next t) :
    Sound s ∧ ∃ hh vv, t = s.edge hh vv (romData s) := by
  cases hr : machineRefusal s with
  | some r => simp [step, hr] at h
  | none =>
    have hs := (machineRefusal_eq_none_iff s).1 hr
    rw [step_of_sound hs] at h
    obtain ⟨hh, vv, e⟩ := exec_eq_next (decodeWord s.cfg.layout s.l) s
    rw [e] at h
    exact ⟨hs, hh, vv, by cases h; rfl⟩

/-- A next state is the next state it is. -/
theorem next_inj {s t : State} :
    (Host.Outcome.next s : Host.Outcome State Fault Refusal) = .next t ↔ s = t :=
  ⟨fun h => by cases h; rfl, fun h => by rw [h]⟩

/-- A run of no edge ends where it began. -/
@[simp] theorem runs_zero (s t : State) : Runs 0 s t ↔ t = s :=
  next_inj.trans eq_comm

/-- A run of one more edge begins with a step. -/
theorem runs_succ (n : Nat) (s t : State) : Runs (n + 1) s t ↔ ∃ u, step s = .next u ∧ Runs n u t := by
  have e := Host.Core.run.eq_2 Sys2Proof.core s n
  constructor
  · intro h
    have h' := e.symm.trans h
    cases hs : step s with
    | next u =>
      rw [show Sys2Proof.core.step s = .next u from hs] at h'
      exact ⟨u, rfl, h'⟩
    | fault r => cases r
    | refused r =>
      rw [show Sys2Proof.core.step s = .refused r from hs] at h'
      cases h'
  · rintro ⟨u, hs, h⟩
    rw [show Sys2Proof.core.step s = .next u from hs] at e
    exact e.trans h

/-- Runs compose. -/
theorem runs_add {m n : Nat} {s t u : State} (h : Runs m s t) (k : Runs n t u) : Runs (m + n) s u := by
  induction m generalizing s with
  | zero =>
    rw [runs_zero] at h
    subst h
    simpa using k
  | succ m ih =>
    obtain ⟨w, hw, hr⟩ := (runs_succ m s t).1 h
    rw [show m + 1 + n = (m + n) + 1 by omega]
    exact (runs_succ (m + n) s u).2 ⟨w, hw, ih hr⟩

/-- A run leads to one state. -/
theorem runs_unique {n : Nat} {s t u : State} (h : Runs n s t) (k : Runs n s u) : t = u :=
  next_inj.1 (h.symm.trans k)

end Sys2Proof.Machine
end

