-- ==== Sys2Proof/Tests/Slice0.lean ====
section
/-! SUPPORT. Tests. Expected values are the spec's own vectors (95_test_vectors.md); each group names its section. The
`witness_` theorems show, for each statement with hypotheses, values that meet all of them together. -/

namespace Sys2Proof.Tests

open Sys2Proof.Machine

/-! ## Configurations of 95_test_vectors.md -/

/-- The scenario. -/
abbrev cfgS : Cfg := Config.scenario
/-- The scenario under `TAIL`. -/
abbrev cfgTail : Cfg := { Config.scenario with hresetPolicy := .tail }
/-- The scenario under `PER_LINE`. -/
abbrev cfgPerLine : Cfg := { Config.scenario with fillerPolicy := .perLine }
/-- The scenario under `SUSTAINED`. -/
abbrev cfgSust : Cfg := { Config.scenario with fillerPolicy := .sustained }
/-- The scenario under `TAIL` and `SUSTAINED`. -/
abbrev cfgTailSust : Cfg := { Config.scenario with hresetPolicy := .tail, fillerPolicy := .sustained }
/-- The layout of section 2.4 with `BLANK_END` at bit 7. -/
abbrev layBlankEnd : Layout := { Layout.ref with blankStart := none, blankEnd := some 7 }
/-- The scenario with `BLANK_END` at bit 7. -/
abbrev cfgBlankEnd : Cfg := { Config.scenario with layout := layBlankEnd }
/-- The scenario with a pulse of three lines at bit 7 (section 2.4). -/
abbrev cfgPulse : Cfg :=
  { Config.scenario with vpulseWidth := 3, layout := { Layout.ref with blankStart := none, vblankPulse := some 7 } }
/-- The scenario with `HBI_END = 255`. -/
abbrev cfg255 : Cfg := { Config.scenario with hbiEnd := 255 }
/-- The scenario with `HBI_END = 256`. -/
abbrev cfg256 : Cfg := { Config.scenario with hbiEnd := 256 }
/-- The scenario with `HBI_END = 256` under `SUSTAINED`. -/
abbrev cfg256Sust : Cfg := { Config.scenario with hbiEnd := 256, fillerPolicy := .sustained }
/-- The scenario with `HBI_END = 256` and `VBI_END = 256` under `SUSTAINED`. -/
abbrev cfg256NoFiller : Cfg := { Config.scenario with hbiEnd := 256, vbiEnd := 256, fillerPolicy := .sustained }
/-- The scenario with `VBI_END = 256`. -/
abbrev cfgNoFiller : Cfg := { Config.scenario with vbiEnd := 256 }

/-- A state of a configuration. -/
abbrev st (c : Cfg) (h v l : Nat) : State :=
  State.powerUp c (BitVec.ofNat 8 h) (BitVec.ofNat 8 v) (BitVec.ofNat 8 l)

/-- The registers after one step, `none` where the step is refused. -/
def after (s : State) : Option (Nat × Nat × Nat) :=
  match step s with
  | .next t => some (t.h.toNat, t.v.toNat, t.l.toNat)
  | .fault _ => none
  | .refused _ => none

/-- Why a step is refused. -/
def refusal (s : State) : Option Refusal :=
  match step s with
  | .next _ => none
  | .fault _ => none
  | .refused r => some r

/-- Why a build-time operation is refused. -/
def refusalOf {α : Type} (o : Except Refusal α) : Option Refusal :=
  match o with
  | .ok _ => none
  | .error r => some r

/-! ## WellFormed: each check refuses an ill-formed term (section 2.7) -/

theorem test_scenario_valid : cfgS.failedClauses = [] := by decide
theorem test_clause_a : ({ cfgS with hsyStart := 100 } : Cfg).failedClauses = [.a] := by decide
theorem test_clause_a_width : ({ cfgS with hbiEnd := 257 } : Cfg).failedClauses = [.a] := by decide
theorem test_clause_b : ({ cfgS with vsyEnd := 244 } : Cfg).failedClauses = [.b] := by decide
theorem test_clause_c_low : ({ cfgS with irqRecovery := 0 } : Cfg).failedClauses = [.c] := by decide
theorem test_clause_c_high : ({ cfgS with irqRecovery := 12 } : Cfg).failedClauses = [.c] := by decide
theorem test_clause_d : ({ cfgS with vpulseWidth := 29 } : Cfg).failedClauses = [.d] := by decide
theorem test_clause_e :
    ({ cfgS with layout := { Layout.ref with display := some 7 } } : Cfg).failedClauses = [.e] := by decide
theorem test_clause_f :
    ({ cfgS with layout := { Layout.ref with hresetN := none } } : Cfg).failedClauses = [.f] := by decide
theorem test_clause_g_none :
    ({ cfgS with layout := { Layout.ref with blankStart := none } } : Cfg).failedClauses = [.g] := by decide
theorem test_clause_g_three :
    ({ cfgS with layout := { Layout.ref with hsyncN := none, display := none, blankEnd := some 0, vblankPulse := some 6 } } :
      Cfg).failedClauses = [.g] := by decide
theorem test_clause_h : ({ cfgS with fillerPolicy := .unlisted "DOUBLE" } : Cfg).failedClauses = [.h] := by decide
theorem test_limits_valid :
    ({ cfgS with irqRecovery := 11, vpulseWidth := 28 } : Cfg).valid = true ∧ cfg255.valid = true ∧
      cfg256.valid = true ∧ cfgNoFiller.valid = true ∧ ({ cfgS with hbiStart := 0 } : Cfg).valid = true := by decide
theorem test_op_needs_its_bits :
    Instr.wellFormed { Layout.ref with hresetN := none } .count = false ∧
      Instr.wellFormed { Layout.ref with vresetN := none } .count = false ∧
      Instr.wellFormed { Layout.ref with vresetN := some 4 } .count = false := by decide

/-! ## Decode (section 2.1, words written out bit by bit under `REF`) -/

theorem test_decode_count : decode Layout.ref [0b01110011#8] = .ok .count := rfl
theorem test_decode_hclr : decode Layout.ref [0b00100111#8] = .ok .hclr := rfl
theorem test_decode_vclr : decode Layout.ref [0b00010000#8] = .ok .vclr := rfl
theorem test_decode_hvclr : decode Layout.ref [0b11001111#8] = .ok .hvclr := rfl
theorem test_decode_nothing : decode Layout.ref [] = .error .noWord := rfl
theorem test_decode_two_bytes : decode Layout.ref [0x30#8, 0x30#8] = .error .moreThanOneByte := rfl
theorem test_table_words :
    decodeTableWord 8 0x30 = some .count ∧ decodeTableWord 8 0x20 = some .hclr ∧
      decodeTableWord 8 0x10 = some .vclr ∧ decodeTableWord 8 0x00 = some .hvclr := by decide
theorem test_idle_is_the_inactive_level : Signal.all.all (fun sig => Signals.idle.get sig == sig.activeLow) = true := by
  decide
theorem test_pack_idle : pack Layout.ref Signals.idle = 0x33#8 := by decide
theorem test_other_layout_decodes_other_bits :
    decodeWord { Layout.ref with hresetN := some 0, hsyncN := some 4 } 0x20#8 = .hclr ∧
      decodeWord { Layout.ref with hresetN := some 0, hsyncN := some 4 } 0x21#8 = .count := by decide

/-! ## The table (sections 2.2 to 2.4) -/

theorem test_table_main_rows :
    tableByte cfgS 99 0 = 0x73#8 ∧ tableByte cfgS 100 0 = 0xB7#8 ∧ tableByte cfgS 105 0 = 0x36#8 ∧
      tableByte cfgS 132 0 = 0x27#8 ∧ tableByte cfgS 133 0 = 0x37#8 ∧ tableByte cfgS 100 216 = 0xBF#8 ∧
      tableByte cfgS 110 217 = 0x3C#8 ∧ tableByte cfgS 132 217 = 0x2D#8 ∧ tableByte cfgS 100 243 = 0x3F#8 := by decide
theorem test_table_tail :
    tableByte cfgTail 131 0 = 0x37#8 ∧ tableByte cfgTail 133 0 = 0x27#8 ∧ tableByte cfgTail 255 243 = 0x2F#8 ∧
      tableByte cfgTail 133 244 = 0x30#8 := by decide
theorem test_table_filler :
    tableByte cfgS 132 244 = 0x00#8 ∧ tableByte cfgS 132 245 = 0x30#8 ∧ tableByte cfgPerLine 132 245 = 0x00#8 ∧
      tableByte cfgPerLine 131 250 = 0x30#8 ∧ tableByte cfgSust 0 244 = 0x00#8 := by decide
theorem test_table_blank_end :
    tableByte cfgBlankEnd 126 215 = 0xB7#8 ∧ tableByte cfgBlankEnd 126 216 = 0x3F#8 ∧
      tableByte cfgBlankEnd 126 242 = 0x3F#8 ∧ tableByte cfgBlankEnd 126 243 = 0xBF#8 ∧
      tableByte cfgBlankEnd 125 0 = 0x37#8 := by decide
theorem test_table_pulse :
    tableByte cfgPulse 0 215 = 0x73#8 ∧ tableByte cfgPulse 0 216 = 0xBB#8 ∧ tableByte cfgPulse 0 218 = 0xB9#8 ∧
      tableByte cfgPulse 0 219 = 0x39#8 ∧ tableByte cfgPulse 110 217 = 0xBC#8 := by decide
theorem test_composer :
    pack Layout.ref (composeSignals cfgS 110 217) = 0x3C#8 ∧ pack Layout.ref (composeSignals cfgS 132 244) = 0x00#8 ∧
      pack Layout.ref (composeSignals cfgS 100 216) = 0xBF#8 := by decide

/-! ## The clock step (section 2.5) -/

theorem test_count : after (st cfgS 132 0 0x37) = some (133, 0, 0x27) := by decide
theorem test_count_wraps_both : after (st cfgS 255 255 0x33) = some (0, 0, 0x30) := by decide
theorem test_hclr_at_255_counts_once : after (st cfgS 255 243 0x20) = some (0, 244, 0x3F) := by decide
theorem test_hclr_holds_without_release : after (st cfgTail 133 5 0x27) = some (0, 5, 0x27) := by decide
theorem test_vclr : after (st cfgS 7 100 0x10) = some (8, 0, 0x73) := by decide
theorem test_vclr_beats_wrap : after (st cfgS 255 100 0x10) = some (0, 0, 0x37) := by decide
theorem test_hvclr : after (st cfgS 133 244 0x00) = some (0, 0, 0x30) := by decide
theorem test_hvclr_ignores_outputs : after (st cfgS 0 0 0xCF) = some (0, 0, 0x73) := by decide
theorem test_255_counts_again_by_release : after (st cfg255 0 4 0x27) = some (0, 5, 0x73) := by decide

theorem test_trace_of_one_edge :
    trace 1 (st cfgS 133 0 0x27) = [(133#8, 0#8, 0x27#8), (0#8, 1#8, 0x37#8)] := by decide

/-! ## Refusals (R100, R101) and the reset state -/

theorem test_invalid_configuration_refused :
    refusal (st { cfgS with irqRecovery := 0 } 0 0 0x73) = some (.configurationError .c) := by decide
theorem test_invalid_configuration_has_no_image :
    refusalOf (writeTable { cfgS with hbiEnd := 257 }) = some (.configurationError .a) ∧
      refusalOf (Memory.load { cfgS with vpulseWidth := 29 } [0x73#8]) = some (.configurationError .d) ∧
      refusalOf (buildMachine { cfgS with fillerPolicy := .unlisted "DOUBLE" } 0#8 0#8 0#8) =
        some (.configurationError .h) := by decide
theorem test_changed_rom_refused :
    refusal { st cfgS 0 0 0x73 with rom := [(5, 0x00#8)] } = some .romNotImage := by decide
theorem test_reset_runs_table_word :
    after (State.reset.withFetchWord 8 0x30) = some (1, 0, 0x73) ∧
      after (State.reset.withFetchWord 8 0x20) = some (0, 1, 0x73) ∧
      after (State.reset.withFetchWord 8 0x10) = some (1, 0, 0x73) ∧
      after (State.reset.withFetchWord 8 0x00) = some (0, 0, 0x73) := by decide
theorem test_reset_memory_wf : Memory.wf State.reset.cfg State.reset.rom := by decide
theorem test_short_image_not_loaded : refusalOf (Memory.load cfgS [0x73#8]) = some .writeError := by decide

/-! ## Witnesses: the hypotheses of each statement can be met -/

theorem sound_st {c : Cfg} (hc : c.valid = true) (h v l : Nat) : Sound (st c h v l) := ⟨hc, rfl⟩

theorem valid_S : cfgS.valid = true := by decide
theorem valid_tail : cfgTail.valid = true := by decide
theorem valid_perLine : cfgPerLine.valid = true := by decide
theorem valid_sust : cfgSust.valid = true := by decide
theorem valid_tailSust : cfgTailSust.valid = true := by decide
theorem valid_blankEnd : cfgBlankEnd.valid = true := by decide
theorem valid_255 : cfg255.valid = true := by decide
theorem valid_256 : cfg256.valid = true := by decide
theorem valid_noFiller : cfgNoFiller.valid = true := by decide

theorem witness_DecodeOfEncodeIsTheOperation : Instr.wellFormed Layout.ref .vclr = true := by decide
theorem witness_OperationFieldSelectsTheOperation : cfgBlankEnd.valid = true := valid_blankEnd
theorem witness_OnlyTheResetBitsChangeState :
    bitOf cfgS.layout .hresetN 0xCF#8 = bitOf cfgS.layout .hresetN (st cfgS 0 0 0x00).l ∧
      bitOf cfgS.layout .vresetN 0xCF#8 = bitOf cfgS.layout .vresetN (st cfgS 0 0 0x00).l := by decide
theorem witness_PackedByteCarriesItsSignals :
    layBlankEnd.injective = true ∧ layBlankEnd.pos .blankEnd = some 7 := by decide
theorem witness_PackedByteCarriesItsSignals_unmapped :
    ∀ sig i, ({ Layout.ref with display := none } : Layout).pos sig = some i → i.val ≠ 6 := by
  intro sig; cases sig <;> decide
theorem witness_ColumnLiesInExactlyOneInterval :
    cfg256.valid = true ∧ cfg256.hbiEnd = 256 ∧ ({ cfgS with hbiStart := 0 } : Cfg).valid = true := by decide
theorem witness_LineLiesInExactlyOneInterval : cfgS.valid = true ∧ 243 < 256 ∧ 244 < 256 := by decide
theorem witness_DisplayBitOfTheTable :
    cfgS.valid = true ∧ cfgS.vbiStart ≤ 216 ∧ ({ cfgS with hbiStart := 0 } : Cfg).valid = true := by decide
theorem witness_VerticalBlankBitOfTheTable : cfgS.valid = true ∧ 255 < 256 := by decide
theorem witness_VerticalSyncBitOfTheTable : cfgS.valid = true ∧ 243 < cfgS.vbiEnd := by decide
theorem witness_VerticalResetOnlyInFillerRows :
    cfgS.valid = true ∧ 243 < cfgS.vbiEnd ∧ (signals cfgS 132 244).vresetN = false := by decide
theorem witness_VerticalResetOnlyInFillerRows_run :
    Runs (0 + 1) (st cfgS 7 100 0x10) (st cfgS 8 0 0x73) := rfl
theorem witness_HorizontalBlankBitOfTheTable :
    cfgS.valid = true ∧ 243 < cfgS.vbiEnd ∧ hPhase cfgS 100 ≠ .hdisp := by decide
theorem witness_HorizontalSyncBitOfTheTable : cfgS.valid = true ∧ 243 < cfgS.vbiEnd := by decide
theorem witness_HorizontalResetColumnByPolicy :
    cfgTail.valid = true ∧ cfgTail.hresetPolicy = .tail ∧ cfg256.valid = true ∧ cfg256.hresetPolicy = .exact ∧
      0 < cfg256.vbiEnd := by decide
theorem witness_StrobeBitsOfTheTable :
    cfgBlankEnd.valid = true ∧ 126 + cfgBlankEnd.irqRecovery = cfgBlankEnd.hbiEnd ∧ cfgPulse.valid = true ∧
      cfgPulse.vbiStart ≤ 218 ∧ 218 < cfgPulse.vbiStart + cfgPulse.vpulseWidth := by decide
theorem witness_FillerRowsFollowThePolicy :
    cfgS.valid = true ∧ cfgPerLine.valid = true ∧ cfgSust.valid = true ∧ cfgS.vbiEnd ≤ 244 := by decide
theorem witness_ComposerComputesTheRecord : cfgTail.valid = true ∧ 255 < 256 := by decide
theorem witness_TableWriterEmitsTheImage : cfgS.valid = true ∧ 65535 < 65536 := by decide
theorem witness_ImageByteIsTheRomByte :
    cfgS.valid = true ∧ ∃ m, Memory.load cfgS (List.replicate 65536 0x30#8) = .ok m :=
  ⟨valid_S, _, (Memory.load_eq_ok_iff _ _ _).2 ⟨valid_S, List.length_replicate, rfl⟩⟩
theorem witness_ImageByteIsTheRomByte_short : cfgS.valid = true ∧ [0x73#8].length ≠ 65536 := by decide
theorem witness_DisplayWindowOfTheTable :
    cfgS.valid = true ∧ 99 < cfgS.hbiStart ∧ 215 < cfgS.vbiStart ∧ cfgS.layout = Layout.ref := by decide
theorem witness_FillerPulseCounts :
    cfgS.valid = true ∧ cfgPerLine.valid = true ∧ cfgSust.valid = true ∧ cfgS.hbiEnd ≤ 255 ∧ cfgS.vbiEnd ≤ 255 := by
  decide
theorem witness_RomHoldsTheTable : Sound State.reset ∧ Sound (st cfgS 5 6 7) := ⟨sound_st valid_S _ _ _, sound_st valid_S _ _ _⟩
theorem witness_NothingWritesTheRom : Runs 1 (st cfgS 5 0 0x73) (st cfgS 6 0 0x73) := rfl
theorem witness_RomOtherThanTheTableIsRefused :
    cfgS.valid = true ∧ Memory.read cfgS [(5, 0x00#8)] 5 ≠ tableByte cfgS (5 % 256) (5 / 256) ∧
      Memory.wf cfgS [(5, 0x00#8)] := by decide
theorem witness_StepRunsTheDecodedOperation :
    Sound (st cfgS 5 0 0x27) ∧ decode cfgS.layout [fetchWord (st cfgS 5 0 0x27)] = .ok .hclr :=
  ⟨sound_st valid_S _ _ _, rfl⟩
theorem witness_StepIsTheStepFunction : Sound (st cfgTailSust 255 255 0x10) := sound_st valid_tailSust _ _ _
theorem witness_CountersFollowTheUpdateLaws_release : Sound (st cfgS 133 0 0x27) ∧ ReleasesAt (st cfgS 133 0 0x27) :=
  ⟨sound_st valid_S _ _ _, by decide⟩
theorem witness_CountersFollowTheUpdateLaws_wrap : Sound (st cfgS 255 10 0x37) ∧ WrapsAt (st cfgS 255 10 0x37) :=
  ⟨sound_st valid_S _ _ _, by decide⟩
theorem witness_CountersFollowTheUpdateLaws_hold :
    Sound (st cfgTail 133 5 0x27) ∧ ¬ (ReleasesAt (st cfgTail 133 5 0x27) ∨ WrapsAt (st cfgTail 133 5 0x27)) :=
  ⟨sound_st valid_tail _ _ _, by decide⟩
theorem witness_LatchLoadsTheAddressedByte : Sound (st cfgS 255 255 0x33) := sound_st valid_S _ _ _
theorem witness_EveryMachineStateRunsForever : Sound (st cfg255 255 3 0x37) := sound_st valid_255 _ _ _
theorem witness_InvalidConfigurationIsRefused : ({ cfgS with irqRecovery := 0 } : Cfg).valid = false := by decide
theorem witness_FirstEdgeRunsTheDrawnLatch :
    cfgS.valid = true ∧ bitOf cfgS.layout .hresetN 0x00#8 = false ∧ bitOf cfgS.layout .vresetN 0x00#8 = false := by
  decide
theorem witness_LinesCarryTheAddressedSignals :
    Sound (st cfgBlankEnd 126 243 0x3F) ∧ cfgBlankEnd.layout.present .blankEnd = true ∧
      cfgBlankEnd.layout.present .blankStart = false :=
  ⟨sound_st valid_blankEnd _ _ _, by decide⟩
theorem witness_BlankEndLeadsTheReset :
    Sound (st cfgBlankEnd 126 0 0x37) ∧ cfgBlankEnd.hbiEnd ≤ 255 ∧ cfgBlankEnd.layout.present .blankEnd = true ∧
      Selects (st cfgBlankEnd 126 0 0x37) .count ∧
      (st cfgBlankEnd 126 0 0x37).h.toNat + cfgBlankEnd.irqRecovery = cfgBlankEnd.hbiEnd ∧
      (st cfgBlankEnd 126 0 0x37).v.toNat < cfgBlankEnd.vbiStart :=
  ⟨sound_st valid_blankEnd _ _ _, by decide⟩
theorem witness_BlankEndLeadsTheReset_last_line :
    Sound (st cfgBlankEnd 126 243 0x3F) ∧ cfgBlankEnd.hbiEnd ≤ 255 ∧ cfgBlankEnd.layout.present .blankEnd = true ∧
      Selects (st cfgBlankEnd 126 243 0x3F) .count ∧
      (st cfgBlankEnd 126 243 0x3F).h.toNat + cfgBlankEnd.irqRecovery = cfgBlankEnd.hbiEnd ∧
      (st cfgBlankEnd 126 243 0x3F).v.toNat + 1 = cfgBlankEnd.vbiEnd :=
  ⟨sound_st valid_blankEnd _ _ _, by decide⟩
theorem witness_SettledLatchInvariant :
    Settled (st cfgS 5 0 0x73) ∧ step (st cfgS 5 0 0x73) = .next (st cfgS 6 0 0x73) :=
  ⟨⟨sound_st valid_S _ _ _, by decide, 4, by decide, 0, by decide, by decide⟩, rfl⟩
theorem witness_SettledLatchIsNeverVclr :
    Memory.wf cfgS [] ∧ step (st cfgS 7 100 0x10) = .next (st cfgS 8 0 0x73) := ⟨by decide, rfl⟩
theorem witness_FrameIsClosedUnderTheStep :
    OnFrame (st cfgS 133 0 0x27) ∧ step (st cfgS 133 0 0x27) = .next (st cfgS 0 1 0x37) :=
  ⟨⟨sound_st valid_S _ _ _, by decide, by decide, by decide⟩, rfl⟩
theorem witness_FrameIsClosedUnderTheStep_tail_sustained :
    OnFrame (st cfgTailSust 1 244 0x00) ∧ step (st cfgTailSust 1 244 0x00) = .next (st cfgTailSust 0 0 0x00) :=
  ⟨⟨sound_st valid_tailSust _ _ _, by decide, by decide, by decide⟩, rfl⟩
theorem witness_FrameAnchorIsOnTheFrame : cfgSust.valid = true ∧ Regular cfgSust := ⟨valid_sust, by decide⟩
theorem witness_FrameAnchorIsTheOnlyOne_other_layout : cfgBlankEnd.valid = true ∧ Regular cfgBlankEnd :=
  ⟨valid_blankEnd, by decide⟩
theorem witness_FrameAnchorIsTheOnlyOne :
    OnFrame (frameAnchor cfgS) ∧ (frameAnchor cfgS).h = 0#8 ∧ (frameAnchor cfgS).v = 0#8 ∧
      Selects (frameAnchor cfgS) .count ∧ cfgS.layout = Layout.ref ∧ cfgS.fillerPolicy ≠ .sustained :=
  ⟨⟨⟨valid_S, rfl⟩, by decide, by decide, by decide⟩, by decide⟩
theorem witness_LineLengthUnderExact :
    Sound (st cfgS 0 243 0x3F) ∧ cfgS.hbiEnd ≤ 254 ∧ cfgS.hresetPolicy = .exact ∧
      (st cfgS 0 243 0x3F).v.toNat < cfgS.vbiEnd ∧ Selects (st cfgS 0 243 0x3F) .count :=
  ⟨sound_st valid_S _ _ _, by decide⟩
theorem witness_LineLengthUnderTail :
    Sound (st cfgTail 0 5 0x73) ∧ cfgTail.hbiEnd ≤ 254 ∧ cfgTail.hresetPolicy = .tail ∧
      (st cfgTail 0 5 0x73).v.toNat < cfgTail.vbiEnd ∧ Selects (st cfgTail 0 5 0x73) .count :=
  ⟨sound_st valid_tail _ _ _, by decide⟩
theorem witness_FramePeriodExactPulse :
    Sound (frameAnchor cfgPerLine) ∧ Regular cfgPerLine ∧ cfgPerLine.hresetPolicy = .exact ∧
      cfgPerLine.fillerPolicy ≠ .sustained ∧ At (frameAnchor cfgPerLine) 0 0 (anchorLatch cfgPerLine) :=
  ⟨⟨valid_perLine, rfl⟩, by decide⟩
theorem witness_FramePeriodTailPulse :
    Sound (frameAnchor cfgTail) ∧ Regular cfgTail ∧ cfgTail.hresetPolicy = .tail ∧
      cfgTail.fillerPolicy ≠ .sustained ∧ At (frameAnchor cfgTail) 0 0 (anchorLatch cfgTail) :=
  ⟨⟨valid_tail, rfl⟩, by decide⟩
theorem witness_FramePeriodExactSustained :
    Sound (frameAnchor cfgSust) ∧ Regular cfgSust ∧ cfgSust.hresetPolicy = .exact ∧
      cfgSust.fillerPolicy = .sustained ∧ At (frameAnchor cfgSust) 0 0 (anchorLatch cfgSust) :=
  ⟨⟨valid_sust, rfl⟩, by decide⟩
theorem witness_FramePeriodTailSustained :
    Sound (frameAnchor cfgTailSust) ∧ Regular cfgTailSust ∧ cfgTailSust.hresetPolicy = .tail ∧
      cfgTailSust.fillerPolicy = .sustained ∧ At (frameAnchor cfgTailSust) 0 0 (anchorLatch cfgTailSust) :=
  ⟨⟨valid_tailSust, rfl⟩, by decide⟩
theorem witness_FramePresentsItsAddresses :
    cfgSust.valid = true ∧ Regular cfgSust ∧ frameAddress cfgSust 1 244 = true ∧ frameAddress cfgSust 2 244 = false ∧
      frameAddress cfgS 133 244 = true ∧ frameAddress cfgS 134 244 = false := by decide
theorem witness_FramePresentsItsAddresses_run : Runs 0 (frameAnchor cfgS) (frameAnchor cfgS) := rfl
theorem witness_SynchronisesUnderSinglePulse :
    Sound (st cfgS 250 250 0x30) ∧ Regular cfgS ∧ cfgS.fillerPolicy = .singlePulse :=
  ⟨sound_st valid_S _ _ _, by decide⟩
theorem witness_SynchronisesUnderPerLine :
    Sound (st cfgPerLine 250 250 0x30) ∧ Regular cfgPerLine ∧ cfgPerLine.fillerPolicy = .perLine :=
  ⟨sound_st valid_perLine _ _ _, by decide⟩
theorem witness_SynchronisesUnderSustained :
    Sound (st cfgSust 250 250 0x30) ∧ Regular cfgSust ∧ cfgSust.fillerPolicy = .sustained :=
  ⟨sound_st valid_sust _ _ _, by decide⟩
theorem witness_ResetColumn255CountsTwice :
    Sound (st cfg255 0 242 0x73) ∧ cfg255.hbiEnd = 255 ∧ (st cfg255 0 242 0x73).h = 0#8 ∧
      (st cfg255 0 242 0x73).v.toNat + 1 < cfg255.vbiEnd ∧ Selects (st cfg255 0 242 0x73) .count :=
  ⟨sound_st valid_255 _ _ _, by decide⟩
theorem witness_NoResetColumnCountsEveryAddress :
    Sound (st cfg256 254 3 0x37) ∧ cfg256.hbiEnd = 256 ∧ cfg256.fillerPolicy ≠ .sustained ∧
      Selects (st cfg256 254 3 0x37) .count :=
  ⟨sound_st valid_256 _ _ _, by decide⟩
theorem witness_NoResetColumnCountsEveryAddress_no_filler :
    Sound (st cfg256NoFiller 254 3 0x37) ∧ cfg256NoFiller.hbiEnd = 256 ∧ cfg256NoFiller.vbiEnd = 256 ∧
      Selects (st cfg256NoFiller 254 3 0x37) .count :=
  ⟨sound_st (by decide) _ _ _, by decide⟩
theorem witness_NoResetColumnUnderSustained :
    Sound (st cfg256Sust 0 0 0x73) ∧ cfg256Sust.hbiEnd = 256 ∧ cfg256Sust.fillerPolicy = .sustained ∧
      cfg256Sust.vbiEnd ≤ 255 ∧ At (st cfg256Sust 0 0 0x73) 0 0 (tableByte cfg256Sust 0 0) :=
  ⟨sound_st (by decide) _ _ _, by decide⟩
theorem witness_NoFillerRowsFrameIs256Lines :
    Sound (st cfgNoFiller 0 0 0x3F) ∧ cfgNoFiller.hbiEnd ≤ 254 ∧ cfgNoFiller.vbiEnd = 256 ∧
      At (st cfgNoFiller 0 0 0x3F) 0 0 (tableByte cfgNoFiller (rowEndColumn cfgNoFiller) 255) :=
  ⟨sound_st valid_noFiller _ _ _, by decide⟩

end Sys2Proof.Tests
end

/-! PROOFS. The ROM and its address (20_memory.md): what an edge leaves unchanged, what a machine's ROM reads as, and
the two halves of the address. -/

namespace Sys2Proof.Machine

/-- An edge writes the three registers and nothing else (R29): the configuration and the ROM stay. -/
theorem step_keeps_cfg_rom {s t : State} (h : step s = .next t) : t.cfg = s.cfg ∧ t.rom = s.rom := by
  obtain ⟨-, hh, vv, rfl⟩ := step_next_inv h
  exact ⟨State.edge_cfg .., State.edge_rom ..⟩

/-- The induction over a run, once: what every step keeps, every run keeps. -/
theorem runs_invariant {P : State → Prop} (hstep : ∀ {s t}, step s = .next t → P s → P t)
    {n : Nat} {s t : State} (hrun : Runs n s t) (hs : P s) : P t := by
  induction n generalizing s with
  | zero =>
    obtain rfl := (runs_zero s t).1 hrun
    exact hs
  | succ n ih =>
    obtain ⟨u, hu, hrest⟩ := (runs_succ n s t).1 hrun
    exact ih hrest (hstep hu hs)

/-- No run of edges writes the configuration or the ROM (R40). -/
theorem runs_keeps_cfg_rom {n : Nat} {s t : State} (h : Runs n s t) : t.cfg = s.cfg ∧ t.rom = s.rom := by
  refine runs_invariant (P := fun u => u.cfg = s.cfg ∧ u.rom = s.rom) (fun hstep ⟨hcfg, hrom⟩ => ?_) h ⟨rfl, rfl⟩
  obtain ⟨hcfg', hrom'⟩ := step_keeps_cfg_rom hstep
  exact ⟨hcfg'.trans hcfg, hrom'.trans hrom⟩

/-- A machine's ROM reads as the image at every address (R32). -/
theorem Sound.read_eq_imageByte {s : State} (hs : Sound s) (a : Nat) :
    Memory.read s.cfg s.rom a = imageByte s.cfg a :=
  Memory.read_of_isImage hs.2 a

/-- The high byte of the address is the vertical counter (R31). -/
theorem romAddr_high (s : State) : (romAddr s).extractLsb' 8 8 = s.v :=
  BitVec.extractLsb'_append_eq_left

/-- The low byte of the address is the horizontal counter (R31). -/
theorem romAddr_low (s : State) : (romAddr s).extractLsb' 0 8 = s.h :=
  BitVec.extractLsb'_append_eq_right

/-- Settles O25, from what one edge keeps, by the induction over a run. -/
theorem nothingWritesTheRom : Obligations.NothingWritesTheRom := by
  intro n s t hrun
  obtain ⟨hcfg, hrom⟩ := runs_keeps_cfg_rom hrun
  exact ⟨hcfg, hrom, fun a => by rw [hcfg, hrom]⟩

/-- Settles O23: the address is the concatenation by definition; its value and its halves are the lemmas above. -/
theorem addressIsVerticalThenHorizontal : Obligations.AddressIsVerticalThenHorizontal :=
  fun s => ⟨romAddr_toNat s, rfl, romAddr_high s, romAddr_low s⟩

/-- Settles O24: a machine's ROM reads as the image, which the configuration alone determines. -/
theorem romHoldsTheTable : Obligations.RomHoldsTheTable := by
  refine ⟨fun s hs x hx y _ => ?_, fun s t hs ht hcfg a _ => ?_⟩
  · calc Memory.read s.cfg s.rom (y * 256 + x)
        = imageByte s.cfg (y * 256 + x) := hs.read_eq_imageByte _
      _ = tableByte s.cfg x y := imageByte_of_pair _ y hx
  · calc Memory.read s.cfg s.rom a
        = imageByte s.cfg a := hs.read_eq_imageByte a
      _ = imageByte t.cfg a := by rw [hcfg]
      _ = Memory.read t.cfg t.rom a := (ht.read_eq_imageByte a).symm

end Sys2Proof.Machine

/-! PROOFS. The counter-operation field (30_encoding.md section 3): the bits of an operation's match and of the mask,
when a word's masked bits are an operation's match, and that an edge reads nothing else of the latch. -/

namespace Sys2Proof

/-- One byte decodes, to the operation of its own field (R54, R56). -/
@[simp] theorem decode_singleton (lay : Layout) (w : Byte) : decode lay [w] = .ok (decodeWord lay w) := rfl

/-- The operation of a word, one reset bit at a time (R54). -/
theorem decodeWord_eq_iff_bits (lay : Layout) (w : Byte) (i : Instr) :
    decodeWord lay w = i ↔ bitOf lay .hresetN w = i.resetBits.1 ∧ bitOf lay .vresetN w = i.resetBits.2 := by
  rw [decodeWord_eq_iff, Prod.ext_iff, eq_comm, @eq_comm _ i.resetBits.2]

/-- The mask is the match of `COUNT`, the operation with both reset bits 1 (R54). -/
theorem opMask_eq_opMatch_count (lay : Layout) : opMask lay = opMatch lay .count := rfl

section Field

variable {lay : Layout} {p q : Fin 8} (hp : lay.hresetN = some p) (hq : lay.vresetN = some q)
include hp hq

/-- The bits of an operation's match: each reset bit at its own position, 0 elsewhere (R54). -/
theorem opMatch_getLsbD_iff (i : Instr) (n : Nat) :
    (opMatch lay i).getLsbD n = true ↔
      (n = p.val ∧ i.resetBits.1 = true) ∨ (n = q.val ∧ i.resetBits.2 = true) := by
  simp [opMatch, bitAt_getLsbD, hp, hq, and_comm, eq_comm (a := n)]

/-- The bits of the mask: the two positions of the field (R54). -/
theorem opMask_getLsbD_iff (n : Nat) : (opMask lay).getLsbD n = true ↔ n = p.val ∨ n = q.val := by
  rw [opMask_eq_opMatch_count, opMatch_getLsbD_iff hp hq]
  simp [Instr.resetBits]

/-- A word's masked bits are an operation's match exactly when the word has the operation's reset bits at the two
positions of the field: the mask clears every other bit, and the match is 0 there. -/
theorem and_opMask_eq_opMatch_iff (hpq : p ≠ q) (w : Byte) (i : Instr) :
    w &&& opMask lay = opMatch lay i ↔ w.getLsbD p.val = i.resetBits.1 ∧ w.getLsbD q.val = i.resetBits.2 := by
  have hne : p.val ≠ q.val := Fin.val_ne_of_ne hpq
  have hbit (n : Nat) : (w &&& opMask lay).getLsbD n = (opMatch lay i).getLsbD n ↔
      (w.getLsbD n = true ∧ (n = p.val ∨ n = q.val) ↔
        (n = p.val ∧ i.resetBits.1 = true) ∨ (n = q.val ∧ i.resetBits.2 = true)) := by
    rw [Bool.eq_iff_iff, BitVec.getLsbD_and, Bool.and_eq_true, opMask_getLsbD_iff hp hq, opMatch_getLsbD_iff hp hq]
  constructor
  · intro h
    have hbits (n : Nat) := (hbit n).1 (by rw [h])
    exact ⟨by simpa [hne, ← Bool.eq_iff_iff] using hbits p.val,
      by simpa [hne.symm, ← Bool.eq_iff_iff] using hbits q.val⟩
  · rintro ⟨hwp, hwq⟩
    refine BitVec.eq_of_getLsbD_eq fun n _ => (hbit n).2 ?_
    by_cases hnp : n = p.val
    · rw [hnp, hwp]
      simp [hne]
    · by_cases hnq : n = q.val
      · rw [hnq, hwq]
        simp [hne.symm]
      · simp [hnp, hnq]

/-- Decoding is masking and matching, under a layout that carries the field (R54). -/
theorem decodeWord_eq_iff_and_opMask (hpq : p ≠ q) (w : Byte) (i : Instr) :
    decodeWord lay w = i ↔ w &&& opMask lay = opMatch lay i := by
  rw [decodeWord_eq_iff_bits, and_opMask_eq_opMatch_iff hp hq hpq, bitOf_of_pos (sig := .hresetN) hp,
    bitOf_of_pos (sig := .vresetN) hq]

end Field

/-- Settles O2: the table from the pair of reset bits, mask and match from their bits at the two positions that a valid
layout gives the field. -/
theorem operationFieldSelectsTheOperation : Obligations.OperationFieldSelectsTheOperation := by
  refine ⟨fun lay w => ⟨decodeWord lay w, decode_singleton lay w, ?_⟩, fun c hc w => ?_, by decide, fun c hc => ?_⟩
  · intro j hj
    rw [decode_singleton] at hj
    exact (Except.ok.inj hj).symm
  · obtain ⟨p, q, hp, hq, hpq⟩ := (Layout.carriesOp_iff _).1 (Cfg.carriesOp hc)
    have hbits := decodeWord_eq_iff_bits c.layout w
    exact ⟨hbits .count, hbits .hclr, hbits .vclr, hbits .hvclr, decodeWord_eq_iff_and_opMask hp hq hpq w⟩
  · obtain ⟨p, q, hp, hq, -⟩ := (Layout.carriesOp_iff _).1 (Cfg.carriesOp hc)
    exact ⟨p, q, hp, hq, fun n => ⟨opMask_getLsbD_iff hp hq n, fun i => opMatch_getLsbD_iff hp hq i n⟩⟩

namespace Machine

/-- No operation's meaning reads the latch: what it answers is the same whatever word the latch holds (R22, R53). -/
theorem exec_setLatch (i : Instr) (s : State) (w : Byte) : exec i (s.setLatch w) = exec i s := by
  cases i with
  | count => rfl
  | hclr => rfl
  | vclr => rfl
  | hvclr => rfl

/-- Whether a state is a machine of the block does not depend on its latch (R28). -/
theorem machineRefusal_setLatch (s : State) (w : Byte) : machineRefusal (s.setLatch w) = machineRefusal s := rfl

/-- A word that selects the same operation steps to the same outcome: an edge reads the latch to decode it and for
nothing else. -/
theorem step_setLatch_of_decodeWord_eq {s : State} {w : Byte}
    (h : decodeWord s.cfg.layout w = decodeWord s.cfg.layout s.l) : step (s.setLatch w) = step s := by
  have hexec : exec (decodeWord s.cfg.layout w) (s.setLatch w) = exec (decodeWord s.cfg.layout s.l) s := by
    rw [exec_setLatch, h]
  simp only [step, machineRefusal_setLatch, fetchWord, State.setLatch_cfg, State.setLatch_l, hexec]

/-- Settles O3: words with the same reset bits decode to the same operation, and the edge reads nothing else of the
latch. -/
theorem onlyTheResetBitsChangeState : Obligations.OnlyTheResetBitsChangeState := by
  refine ⟨fun s => decode_singleton _ _, fun s w hh hv => step_setLatch_of_decodeWord_eq ?_, fun w => ⟨?_, ?_⟩⟩
  · rw [decodeWord, hh, hv, decodeWord]
  · exact bitOf_of_pos (lay := Layout.ref) (sig := .hresetN) rfl w
  · exact bitOf_of_pos (lay := Layout.ref) (sig := .vresetN) rfl w

end Machine

end Sys2Proof

/-! PROOFS. The table's content (40_content_table.md): the two partitions, the bit of a present signal in the table's
byte, what a main row and a filler row hold, and the signals of the rules one by one. -/

namespace Sys2Proof

/-- A packed byte has each present signal at its own bit, where no two signals share one (R50, R51). -/
theorem pack_getLsbD_of_pos {lay : Layout} (hinj : lay.injective = true) {sig : Signal} {i : Fin 8}
    (hi : lay.pos sig = some i) (r : Signals) : (pack lay r).getLsbD i.val = r.get sig := by
  have hown (t : Signal) : (lay.pos t).map Fin.val = some i.val ↔ t = sig := by
    rw [Option.map_eq_some_iff]
    constructor
    · rintro ⟨j, hj, hji⟩
      exact (Layout.injective_iff lay).1 hinj t sig i (Fin.ext hji ▸ hj) hi
    · rintro rfl
      exact ⟨i, hi, rfl⟩
  rw [pack_getLsbD, Bool.eq_iff_iff]
  simp [hown, Signal.mem_all]

/-- A valid configuration's layout is injective (clause (e) of R8). -/
theorem Cfg.layout_injective {c : Cfg} (hc : c.valid = true) : c.layout.injective = true :=
  (Cfg.valid_iff_holds c).1 hc .e

namespace Machine

/-! ### The partitions (R59, R60) -/

/-- The five horizontal intervals cover a line: the one that the phase names contains the column (R59). -/
theorem holdsAt_hPhase (c : Cfg) {x : Nat} (hx : x < 256) : (hPhase c x).holdsAt c x = true := by
  unfold hPhase
  split_ifs <;> simp_all [HPhase.holdsAt]

/-- The five horizontal intervals are disjoint, because the boundaries rise: one that contains the column is the one
that the phase names (R59). -/
theorem hPhase_eq_of_holdsAt {c : Cfg} (hF : c.Facts) {x : Nat} {p : HPhase} (hp : p.holdsAt c x = true) :
    hPhase c x = p := by
  have hfp := hF.hbi
  have hsync := hF.hsy
  have hbp := hF.hbp
  unfold hPhase
  cases p with
  | hdisp => rw [if_pos (of_decide_eq_true hp)]
  | hfp =>
    obtain ⟨hlo, hhi⟩ := of_decide_eq_true hp
    rw [if_neg (by omega), if_pos hhi]
  | hsync =>
    obtain ⟨hlo, hhi⟩ := of_decide_eq_true hp
    rw [if_neg (by omega), if_neg (by omega), if_pos hhi]
  | hbp =>
    obtain ⟨hlo, hhi⟩ := of_decide_eq_true hp
    rw [if_neg (by omega), if_neg (by omega), if_neg (by omega), if_pos hhi]
  | htail =>
    obtain ⟨hlo, -⟩ := of_decide_eq_true hp
    rw [if_neg (by omega), if_neg (by omega), if_neg (by omega), if_neg (by omega)]

/-- The five vertical intervals cover the lines: the one that the phase names contains the line (R60). -/
theorem holdsAt_vPhase (c : Cfg) {y : Nat} (hy : y < 256) : (vPhase c y).holdsAt c y = true := by
  unfold vPhase
  split_ifs <;> simp_all [VPhase.holdsAt]

/-- The five vertical intervals are disjoint, because the boundaries rise: one that contains the line is the one that
the phase names (R60). -/
theorem vPhase_eq_of_holdsAt {c : Cfg} (hF : c.Facts) {y : Nat} {p : VPhase} (hp : p.holdsAt c y = true) :
    vPhase c y = p := by
  have hfp := hF.vbi
  have hsync := hF.vsy
  have hbp := hF.vbp
  unfold vPhase
  cases p with
  | vdisp => rw [if_pos (of_decide_eq_true hp)]
  | vfp =>
    obtain ⟨hlo, hhi⟩ := of_decide_eq_true hp
    rw [if_neg (by omega), if_pos hhi]
  | vsync =>
    obtain ⟨hlo, hhi⟩ := of_decide_eq_true hp
    rw [if_neg (by omega), if_neg (by omega), if_pos hhi]
  | vbp =>
    obtain ⟨hlo, hhi⟩ := of_decide_eq_true hp
    rw [if_neg (by omega), if_neg (by omega), if_neg (by omega), if_pos hhi]
  | vfill =>
    obtain ⟨hlo, -⟩ := of_decide_eq_true hp
    rw [if_neg (by omega), if_neg (by omega), if_neg (by omega), if_neg (by omega)]

/-- A column lies in an interval exactly when it is the one that the phase names (R59). -/
theorem holdsAt_iff_hPhase_eq {c : Cfg} (hF : c.Facts) {x : Nat} (hx : x < 256) (p : HPhase) :
    p.holdsAt c x = true ↔ hPhase c x = p :=
  ⟨hPhase_eq_of_holdsAt hF, fun hp => hp ▸ holdsAt_hPhase c hx⟩

/-- The columns outside the display interval are those from `HBI_START` on (R59, R70). -/
theorem hPhase_ne_hdisp_iff {c : Cfg} (hF : c.Facts) {x : Nat} (hx : x < 256) :
    hPhase c x ≠ .hdisp ↔ c.hbiStart ≤ x := by
  rw [Ne, ← holdsAt_iff_hPhase_eq hF hx]
  simp [HPhase.holdsAt]

/-- Settles O7: the intervals cover the line and are disjoint; the first column of each of the three inner intervals
lies in it; the outer two have no room at the limits of the boundaries. -/
theorem columnLiesInExactlyOneInterval : Obligations.ColumnLiesInExactlyOneInterval := by
  intro c hc
  have hF := Cfg.facts hc
  have hfp := hF.hbi
  have hsync := hF.hsy
  have hbp := hF.hbp
  have hend := hF.hend
  exact ⟨fun x hx p => holdsAt_iff_hPhase_eq hF hx p,
    ⟨c.hbiStart, by omega, decide_eq_true ⟨le_rfl, hfp⟩⟩, ⟨c.hsyStart, by omega, decide_eq_true ⟨le_rfl, hsync⟩⟩,
    ⟨c.hsyEnd, by omega, decide_eq_true ⟨le_rfl, hbp⟩⟩, fun h0 x _ => decide_eq_false (by omega),
    fun h256 x _ => decide_eq_false (by omega)⟩

/-- Settles O8: the intervals cover the lines and are disjoint, and the boundaries between `VBI_START` and `VBI_END`
rise. -/
theorem lineLiesInExactlyOneInterval : Obligations.LineLiesInExactlyOneInterval := by
  intro c hc y hy
  have hF := Cfg.facts hc
  refine ⟨fun p => ⟨vPhase_eq_of_holdsAt hF, fun hp => hp ▸ holdsAt_vPhase c hy⟩, ?_⟩
  have hfp := hF.vbi
  have hsync := hF.vsy
  have hbp := hF.vbp
  simp only [VPhase.holdsAt, decide_eq_true_eq]
  omega

/-! ### Record and byte (R50, R62) -/

/-- The table gives a signal the value that the record has: packing keeps it at its bit (R50, R62). -/
theorem tableGives_of_get {c : Cfg} (hc : c.valid = true) {x y : Nat} {sig : Signal} {b : Bool}
    (hb : (signals c x y).get sig = b) : TableGives c x y sig b :=
  ⟨hb, fun _ hi => (pack_getLsbD_of_pos (Cfg.layout_injective hc) hi _).trans hb⟩

/-- The record of a line of the main rows (R62). -/
theorem signals_of_main {c : Cfg} {y : Nat} (hy : y < c.vbiEnd) (x : Nat) : signals c x y = mainSignals c x y :=
  if_neg (Nat.not_le.2 hy)

/-- The record of a filler row (R62). -/
theorem signals_of_filler {c : Cfg} {y : Nat} (hy : c.vbiEnd ≤ y) (x : Nat) : signals c x y = fillerSignals c x y :=
  if_pos hy

/-- In a filler row every signal but the two resets is 0 (R75). -/
theorem fillerSignals_get_of_not_reset (c : Cfg) (x y : Nat) {sig : Signal} (hh : sig ≠ .hresetN)
    (hv : sig ≠ .vresetN) : (fillerSignals c x y).get sig = false := by
  unfold fillerSignals
  cases sig with
  | hresetN => exact absurd rfl hh
  | vresetN => exact absurd rfl hv
  | _ => split <;> rfl

/-- In a filler row the two reset bits are equal, whatever the policy (R76 to R78). -/
theorem fillerSignals_vresetN (c : Cfg) (x y : Nat) :
    (fillerSignals c x y).vresetN = (fillerSignals c x y).hresetN := by
  unfold fillerSignals
  split <;> rfl

/-- In main rows the table gives each signal its rule's value, in the record and in the byte (R64 to R74). -/
theorem tableGives_main {c : Cfg} (hc : c.valid = true) (x : Nat) {y : Nat} (hy : y < c.vbiEnd) (sig : Signal) :
    TableGives c x y sig ((mainSignals c x y).get sig) :=
  tableGives_of_get hc (by rw [signals_of_main hy])

/-- In filler rows the table gives every signal but the two resets 0, in the record and in the byte (R75). -/
theorem tableGives_filler {c : Cfg} (hc : c.valid = true) (x : Nat) {y : Nat} (hy : c.vbiEnd ≤ y) {sig : Signal}
    (hh : sig ≠ .hresetN) (hv : sig ≠ .vresetN) : TableGives c x y sig false :=
  tableGives_of_get hc (by rw [signals_of_filler hy, fillerSignals_get_of_not_reset c x y hh hv])

/-! ### The signals of the display and of the blanking (R65 to R67, R70, R71) -/

/-- `DISPLAY` at every address: the display window lies in the main rows, and filler rows have 0 (R65). -/
theorem tableGives_display {c : Cfg} (hc : c.valid = true) (x y : Nat) :
    TableGives c x y .display (decide (x < c.hbiStart) && decide (y < c.vbiStart)) := by
  rcases Nat.lt_or_ge y c.vbiEnd with hmain | hfill
  · exact tableGives_main hc x hmain .display
  · have hF := Cfg.facts hc
    have hstart : c.vbiStart < c.vbiEnd := hF.vbi.trans (hF.vsy.trans hF.vbp)
    rw [decide_eq_false (show ¬ y < c.vbiStart by omega), Bool.and_false]
    exact tableGives_filler hc x hfill (by decide) (by decide)

/-- `VBLANK` at every address: the lines from `VBI_START` to the end of the main rows; filler rows have 0 (R66). -/
theorem tableGives_vblank {c : Cfg} (hc : c.valid = true) (x y : Nat) :
    TableGives c x y .vblank (decide (c.vbiStart ≤ y) && decide (y < c.vbiEnd)) := by
  rcases Nat.lt_or_ge y c.vbiEnd with hmain | hfill
  · rw [decide_eq_true hmain, Bool.and_true]
    exact tableGives_main hc x hmain .vblank
  · rw [decide_eq_false (Nat.not_lt.2 hfill), Bool.and_false]
    exact tableGives_filler hc x hfill (by decide) (by decide)

/-- Settles O9: the window's value at every address, and what it is where one of its two conditions fails. -/
theorem displayBitOfTheTable : Obligations.DisplayBitOfTheTable := by
  refine ⟨fun c hc x _ y _ => ?_, rfl, by decide, by decide⟩
  have hgives := tableGives_display hc x y
  refine ⟨hgives, fun h0 => ?_, fun hblank => ?_⟩
  · rwa [decide_eq_false (show ¬ x < c.hbiStart by omega), Bool.false_and] at hgives
  · rwa [decide_eq_false (Nat.not_lt.2 hblank), Bool.and_false] at hgives

/-- Settles O10: the signal's value at every address; the examples are evaluated. -/
theorem verticalBlankBitOfTheTable : Obligations.VerticalBlankBitOfTheTable :=
  ⟨fun _ hc x _ y _ => tableGives_vblank hc x y, rfl, by decide, by decide, by decide⟩

/-- Settles O11: the window's first line is in it, and the value is the main row's. -/
theorem verticalSyncBitOfTheTable : Obligations.VerticalSyncBitOfTheTable := by
  refine ⟨fun c hc => ?_, rfl, by decide, by decide, by decide, by decide⟩
  have hF := Cfg.facts hc
  have hrow : c.vsyStart < 256 := (hF.vsy.trans hF.vbp).trans_le hF.vend
  exact ⟨⟨c.vsyStart, hrow, le_rfl, hF.vsy⟩, fun x _ _ hy => tableGives_main hc x hy .vsyncN⟩

/-- Settles O13: the main row's value, which is 1 outside the display interval. -/
theorem horizontalBlankBitOfTheTable : Obligations.HorizontalBlankBitOfTheTable := by
  refine ⟨fun c hc x hx y hy => ?_, rfl, by decide, by decide, by decide⟩
  have hgives : TableGives c x y .hblank (decide (c.hbiStart ≤ x)) := tableGives_main hc x hy .hblank
  refine ⟨hgives, fun hout => ?_⟩
  rwa [decide_eq_true ((hPhase_ne_hdisp_iff (Cfg.facts hc) hx).1 hout)] at hgives

/-- Settles O14: the main row's value. -/
theorem horizontalSyncBitOfTheTable : Obligations.HorizontalSyncBitOfTheTable :=
  ⟨fun _ hc x _ _ hy => tableGives_main hc x hy .hsyncN, rfl, by decide, by decide, by decide, by decide, by decide⟩

/-! ### The vertical reset (R68) -/

/-- A record with `VRESET_N = 0` is a filler row's, and has `HRESET_N = 0` too (R68). -/
theorem filler_of_vresetN_eq_false {c : Cfg} {x y : Nat} (hv : (signals c x y).vresetN = false) :
    c.vbiEnd ≤ y ∧ (signals c x y).hresetN = false := by
  rcases Nat.lt_or_ge y c.vbiEnd with hmain | hfill
  · rw [signals_of_main hmain] at hv
    cases hv
  · rw [signals_of_filler hfill] at hv ⊢
    exact ⟨hfill, (fillerSignals_vresetN c x y).symm.trans hv⟩

/-- Reading a present signal in the table's byte gives the record's value (R51, R62). -/
theorem bitOf_tableByte {c : Cfg} (hc : c.valid = true) {sig : Signal} {i : Fin 8} (hi : c.layout.pos sig = some i)
    (x y : Nat) : bitOf c.layout sig (tableByte c x y) = (signals c x y).get sig := by
  rw [bitOf_of_pos hi]
  exact pack_getLsbD_of_pos (Cfg.layout_injective hc) hi _

/-- The operation of a table byte is the one that the record's two reset bits select (R54, R62). -/
theorem decodeWord_tableByte {c : Cfg} (hc : c.valid = true) (x y : Nat) :
    decodeWord c.layout (tableByte c x y) = opOfBits (signals c x y).hresetN (signals c x y).vresetN := by
  obtain ⟨p, hp⟩ := (Cfg.facts hc).hres
  obtain ⟨q, hq⟩ := (Cfg.facts hc).vres
  rw [decodeWord, bitOf_tableByte hc (sig := .hresetN) hp, bitOf_tableByte hc (sig := .vresetN) hq]
  rfl

/-- No table byte selects `VCLR`: that takes `HRESET_N = 1` beside `VRESET_N = 0` (R68). -/
theorem decodeWord_tableByte_ne_vclr {c : Cfg} (hc : c.valid = true) (x y : Nat) :
    decodeWord c.layout (tableByte c x y) ≠ .vclr := by
  intro hop
  rw [decodeWord_tableByte hc, opOfBits_eq_iff] at hop
  obtain ⟨hh, hv⟩ := Prod.ext_iff.1 hop
  exact Bool.noConfusion (hh.trans (filler_of_vresetN_eq_false hv.symm).2)

/-- After an edge the latch holds the table's byte of the address before it (R89). -/
theorem step_latch_eq_tableByte {s t : State} (h : step s = .next t) :
    t.l = tableByte t.cfg s.h.toNat s.v.toNat := by
  obtain ⟨⟨-, hrom⟩, hh, vv, rfl⟩ := step_next_inv h
  rw [State.edge_l, State.edge_cfg, romData_of_isImage hrom]

/-- After an edge the latch does not select `VCLR` (R68, R89). -/
theorem step_not_selects_vclr {s t : State} (h : step s = .next t) : ¬ Selects t .vclr := by
  obtain ⟨⟨hc, -⟩, -⟩ := step_next_inv h
  rw [← (step_keeps_cfg_rom h).1] at hc
  rw [Selects, step_latch_eq_tableByte h]
  exact decodeWord_tableByte_ne_vclr hc _ _

/-- Settles O12: the reset bits of the record, the operation they select, and the latch of a run's last edge, which is
a table byte. -/
theorem verticalResetOnlyInFillerRows : Obligations.VerticalResetOnlyInFillerRows := by
  have hS : Config.scenario.valid = true := by decide
  refine ⟨fun c hc x _ y _ => ⟨fun hy => tableGives_main hc x hy .vresetN, fun hv => ?_,
    decodeWord_tableByte_ne_vclr hc x y⟩, fun n s t hrun => ?_, rfl, by decide,
    tableGives_of_get hS (by decide), tableGives_of_get hS (by decide)⟩
  · obtain ⟨hfill, hh⟩ := filler_of_vresetN_eq_false hv
    exact ⟨hfill, tableGives_of_get hc hh⟩
  · obtain ⟨u, hu, hrest⟩ := (runs_succ n s t).1 hrun
    exact runs_invariant (P := fun w => ¬ Selects w .vclr) (fun hstep _ => step_not_selects_vclr hstep) hrest
      (step_not_selects_vclr hu)

end Machine

end Sys2Proof

/-! PROOFS. The clock step (41_clock_step.md): a machine has a next state, and its latch is the ROM data. -/

namespace Sys2Proof.Machine

/-- A machine of the block has a next state: each of the four operations answers one (R92 to R95). -/
theorem Sound.exists_step {s : State} (hs : Sound s) : ∃ t, step s = .next t := by
  obtain ⟨hh, vv, hexec⟩ := exec_eq_next (decodeWord s.cfg.layout s.l) s
  exact ⟨s.edge hh vv (romData s), (step_of_sound hs).trans hexec⟩

/-- The ROM data is the byte at the address of the two counters (R31, R88). -/
theorem romData_eq_read (s : State) : romData s = Memory.read s.cfg s.rom (s.v.toNat * 256 + s.h.toNat) := by
  rw [romData, romAddr_toNat]

/-- After an edge the latch holds the ROM data of the state before it, whichever operation ran (R89). -/
theorem step_latch_eq_romData {s t : State} (h : step s = .next t) : t.l = romData s := by
  obtain ⟨-, hh, vv, rfl⟩ := step_next_inv h
  exact State.edge_l ..

/-- Settles O34: every operation loads the latch with the ROM data; that is the byte at the address by definition, and
the table's byte because a machine's ROM holds the table. -/
theorem latchLoadsTheAddressedByte : Obligations.LatchLoadsTheAddressedByte := by
  intro s hs
  obtain ⟨t, hstep⟩ := hs.exists_step
  have hlatch : t.l = romData s := step_latch_eq_romData hstep
  exact ⟨t, hstep, hlatch.trans (romData_eq_read s), hlatch.trans (romData_of_isImage hs.2)⟩

end Sys2Proof.Machine

/-! PROOFS. Words and their operations (30_encoding.md): encoding an operation's field beside any output bits, the
sequences that decode, and the packed byte as a sum. -/

namespace Sys2Proof

section Encode

variable {lay : Layout} {p q : Fin 8} (hp : lay.hresetN = some p) (hq : lay.vresetN = some q)
include hp hq

/-- A word is its operation's field and its other bits: what decoding and masking keep, encoding puts together. -/
theorem encodeWithOutputs_decodeWord (hpq : p ≠ q) (w : Byte) :
    encodeWithOutputs lay (decodeWord lay w) w = w := by
  have hfield := (decodeWord_eq_iff_and_opMask hp hq hpq w (decodeWord lay w)).1 rfl
  rw [encodeWithOutputs, ← hfield, ← BitVec.and_or_distrib_left, BitVec.or_not_self, BitVec.and_allOnes]

/-- The field of an operation lies within the mask (R54). -/
theorem opMatch_and_opMask (i : Instr) : opMatch lay i &&& opMask lay = opMatch lay i := by
  refine BitVec.eq_of_getLsbD_eq fun n _ => ?_
  rw [BitVec.getLsbD_and, Bool.and_eq_left_iff_imp, opMatch_getLsbD_iff hp hq, opMask_getLsbD_iff hp hq]
  exact Or.imp And.left And.left

/-- Put beside output bits, the field still decodes to its operation (R53). -/
theorem decodeWord_encodeWithOutputs (hpq : p ≠ q) (i : Instr) (outputs : Byte) :
    decodeWord lay (encodeWithOutputs lay i outputs) = i := by
  rw [decodeWord_eq_iff_and_opMask hp hq hpq, encodeWithOutputs, BitVec.and_or_distrib_right,
    opMatch_and_opMask hp hq, BitVec.and_assoc, BitVec.not_and_self]
  simp

/-- Put beside output bits, the field leaves them as they are (R53). -/
theorem encodeWithOutputs_and_not_opMask (i : Instr) (outputs : Byte) :
    encodeWithOutputs lay i outputs &&& ~~~(opMask lay) = outputs &&& ~~~(opMask lay) := by
  rw [encodeWithOutputs, ← opMatch_and_opMask hp hq, BitVec.and_or_distrib_right, BitVec.and_assoc,
    BitVec.and_not_self, BitVec.and_assoc, BitVec.and_self]
  simp

end Encode

/-- An operation's own word is the one with output bits 0 (R54). -/
theorem opMatch_eq_encodeWithOutputs_zero (lay : Layout) (i : Instr) :
    opMatch lay i = encodeWithOutputs lay i 0#8 := by
  simp [encodeWithOutputs]

/-- Settles O1: the field decodes beside any output bits, it leaves them as they are, and a word is its field and the
rest. -/
theorem decodeOfEncodeIsTheOperation : Obligations.DecodeOfEncodeIsTheOperation := by
  intro lay i hwf
  obtain ⟨p, q, hp, hq, hpq⟩ := (Layout.carriesOp_iff lay).1 hwf
  have hdecode (outputs : Byte) : decode lay [encodeWithOutputs lay i outputs] = .ok i := by
    rw [decode_singleton, decodeWord_encodeWithOutputs hp hq hpq]
  refine ⟨?_, fun outputs => ⟨hdecode outputs, encodeWithOutputs_and_not_opMask hp hq i outputs⟩,
    encodeWithOutputs_decodeWord hp hq hpq⟩
  rw [encode, opMatch_eq_encodeWithOutputs_zero]
  exact hdecode 0#8

/-- Settles O4: the one byte is the word that decodes. -/
theorem exactlyOneByteDecodes : Obligations.ExactlyOneByteDecodes := by
  intro lay bytes
  simp only [decode_eq_ok_iff, List.length_eq_one_iff]
  constructor
  · rintro ⟨i, w, hw, -⟩
    exact ⟨w, hw⟩
  · rintro ⟨w, hw⟩
    exact ⟨decodeWord lay w, w, hw, rfl⟩

/-- Settles O5: each word is evaluated. -/
theorem writtenWordsDecode : Obligations.WrittenWordsDecode := by
  refine ⟨?_, ?_, ?_, ?_, ?_, ?_, ?_, ?_⟩ <;> decide

/-! ### The packed byte as a sum (R50) -/

/-- The bytes of some of the signals, joined: `pack` is the case of all of them. -/
def packOf (lay : Layout) (r : Signals) (sigs : List Signal) : Byte :=
  sigs.foldr (fun sig w => bitAt (lay.pos sig) (r.get sig) ||| w) 0#8

/-- Packing joins every signal's contribution (R50). -/
theorem pack_eq_packOf (lay : Layout) (r : Signals) : pack lay r = packOf lay r Signal.all := rfl

/-- A joined byte has a bit only where one of its signals has its position. -/
theorem exists_pos_of_packOf_getLsbD {lay : Layout} {r : Signals} {sigs : List Signal} {n : Nat}
    (h : (packOf lay r sigs).getLsbD n = true) : ∃ sig ∈ sigs, (lay.pos sig).map Fin.val = some n := by
  induction sigs with
  | nil => simp [packOf] at h
  | cons sig rest ih =>
    rw [packOf, List.foldr_cons, BitVec.getLsbD_or, bitAt_getLsbD, Bool.or_eq_true, Bool.and_eq_true,
      decide_eq_true_eq] at h
    rcases h with ⟨-, hpos⟩ | hrest
    · exact ⟨sig, List.mem_cons_self, hpos⟩
    · obtain ⟨t, ht, hpos⟩ := ih hrest
      exact ⟨t, List.mem_cons_of_mem _ ht, hpos⟩

/-- One signal's contribution, as a number: its value shifted to its bit (R50). -/
theorem bitAt_toNat (p : Option (Fin 8)) (b : Bool) :
    (bitAt p b).toNat = match p with
      | some i => if b then 2 ^ i.val else 0
      | none => 0 := by
  cases p with
  | none => rfl
  | some i =>
    cases b with
    | false => rfl
    | true => revert i; decide

/-- Where no two signals share a bit, a signal's contribution has no bit in common with that of others. -/
theorem bitAt_and_packOf_eq_zero {lay : Layout} (hinj : lay.injective = true) {r : Signals} {sig : Signal}
    {rest : List Signal} (hsig : sig ∉ rest) : bitAt (lay.pos sig) (r.get sig) &&& packOf lay r rest = 0#8 := by
  refine BitVec.eq_of_getLsbD_eq fun n _ => ?_
  rw [BitVec.getLsbD_zero, BitVec.getLsbD_and, Bool.and_eq_false_imp, bitAt_getLsbD]
  intro hown
  obtain ⟨-, hpos⟩ := Bool.and_eq_true_iff.1 hown
  refine Bool.eq_false_iff.2 fun hother => ?_
  obtain ⟨t, ht, htpos⟩ := exists_pos_of_packOf_getLsbD hother
  obtain ⟨i, hi, hin⟩ := Option.map_eq_some_iff.1 (of_decide_eq_true hpos)
  obtain ⟨j, hj, hjn⟩ := Option.map_eq_some_iff.1 htpos
  have hij : i = j := Fin.ext (hin.trans hjn.symm)
  exact hsig ((Layout.injective_iff lay).1 hinj sig t i hi (hij ▸ hj) ▸ ht)

/-- Where no two signals share a bit, joining the contributions of different signals adds them (R50). -/
theorem packOf_toNat {lay : Layout} (hinj : lay.injective = true) (r : Signals) {sigs : List Signal}
    (hnodup : sigs.Nodup) :
    (packOf lay r sigs).toNat = (sigs.map fun sig => (bitAt (lay.pos sig) (r.get sig)).toNat).sum := by
  induction sigs with
  | nil => rfl
  | cons sig rest ih =>
    obtain ⟨hsig, hrest⟩ := List.nodup_cons.1 hnodup
    have hdisjoint := bitAt_and_packOf_eq_zero hinj (r := r) hsig
    calc (packOf lay r (sig :: rest)).toNat
        = (bitAt (lay.pos sig) (r.get sig) + packOf lay r rest).toNat :=
          congrArg BitVec.toNat (BitVec.add_eq_or_of_and_eq_zero _ _ hdisjoint).symm
      _ = (bitAt (lay.pos sig) (r.get sig)).toNat + (packOf lay r rest).toNat :=
          BitVec.toNat_add_of_and_eq_zero hdisjoint
      _ = _ := by rw [ih hrest, List.map_cons, List.sum_cons]

/-- A bit that no signal maps to is 0 in a packed byte (R50). -/
theorem pack_getLsbD_of_unassigned {lay : Layout} {n : Nat} (hn : ∀ sig i, lay.pos sig = some i → i.val ≠ n)
    (r : Signals) : (pack lay r).getLsbD n = false := by
  refine Bool.eq_false_iff.2 fun h => ?_
  obtain ⟨sig, -, hpos⟩ := exists_pos_of_packOf_getLsbD h
  obtain ⟨i, hi, hin⟩ := Option.map_eq_some_iff.1 hpos
  exact hn sig i hi hin

/-- Settles O6: the bits of the signals, the bits of none, and the sum over the contributions. -/
theorem packedByteCarriesItsSignals : Obligations.PackedByteCarriesItsSignals := by
  intro lay r hinj
  refine ⟨fun sig i hi => ?_, fun n hn => pack_getLsbD_of_unassigned hn r, ?_⟩
  · have hbit := pack_getLsbD_of_pos hinj hi r
    exact ⟨hbit, (bitOf_of_pos hi _).trans hbit⟩
  · rw [pack_eq_packOf, packOf_toNat hinj r (by decide)]
    exact congrArg List.sum (List.map_congr_left fun sig _ => bitAt_toNat _ _)

end Sys2Proof

/-! PROOFS. The table's content, continued (40_content_table.md): the horizontal reset, the strobes, the filler rows,
the display window, and how many addresses clear the counters. -/

namespace Sys2Proof

/-- The main rows begin before they end (clause (b) of R8). -/
theorem Cfg.Facts.vbiStart_lt_vbiEnd {c : Cfg} (hF : c.Facts) : c.vbiStart < c.vbiEnd :=
  hF.vbi.trans (hF.vsy.trans hF.vbp)

/-- There is a main row (clause (b) of R8). -/
theorem Cfg.Facts.vbiEnd_pos {c : Cfg} (hF : c.Facts) : 0 < c.vbiEnd :=
  Nat.zero_lt_of_lt hF.vbp

/-- Column 0 lies before the reset column (clause (a) of R8). -/
theorem Cfg.Facts.hbiEnd_pos {c : Cfg} (hF : c.Facts) : 0 < c.hbiEnd :=
  Nat.zero_lt_of_lt hF.hbp

end Sys2Proof

namespace Sys2Proof.Machine

/-! ### The horizontal reset in main rows (R72) -/

/-- Under `EXACT` the horizontal clear is asked for in one column (R72). -/
theorem hresetColumn_of_exact {c : Cfg} (he : c.hresetPolicy = .exact) (x : Nat) :
    hresetColumn c x = decide (x = c.hbiEnd) :=
  if_pos he

/-- Under any other policy it is asked for in every column from there on (R72). -/
theorem hresetColumn_of_ne_exact {c : Cfg} (he : c.hresetPolicy ≠ .exact) (x : Nat) :
    hresetColumn c x = decide (c.hbiEnd ≤ x) :=
  if_neg he

/-- Under `TAIL` it is asked for in every column from there on (R72). -/
theorem hresetColumn_of_tail {c : Cfg} (ht : c.hresetPolicy = .tail) (x : Nat) :
    hresetColumn c x = decide (c.hbiEnd ≤ x) :=
  hresetColumn_of_ne_exact (by rw [ht]; decide) x

/-- No column before `HBI_END` asks for a horizontal clear, under either policy (R72). -/
theorem hresetColumn_of_lt {c : Cfg} {x : Nat} (hx : x < c.hbiEnd) : hresetColumn c x = false := by
  by_cases he : c.hresetPolicy = .exact
  · rw [hresetColumn_of_exact he, decide_eq_false (by omega)]
  · rw [hresetColumn_of_ne_exact he, decide_eq_false (by omega)]

/-- Settles O15: the main row's value is the policy's, and no column below 256 is at `HBI_END = 256` or after. -/
theorem horizontalResetColumnByPolicy : Obligations.HorizontalResetColumnByPolicy := by
  intro c hc x hx y hy
  have hgives : TableGives c x y .hresetN (!hresetColumn c x) := tableGives_main hc x hy .hresetN
  refine ⟨fun he => ?_, fun ht => ?_, fun h256 => ?_⟩
  · rwa [hresetColumn_of_exact he] at hgives
  · rwa [hresetColumn_of_tail ht] at hgives
  · rwa [hresetColumn_of_lt (by omega)] at hgives

/-! ### The strobes (R69, R73, R74) -/

/-- `BLANK_START` at every address: its column, on the display lines and the first blanking line (R73). -/
theorem tableGives_blankStart {c : Cfg} (hc : c.valid = true) (x y : Nat) :
    TableGives c x y .blankStart (decide (x = c.hbiStart) && decide (y ≤ c.vbiStart)) := by
  rcases Nat.lt_or_ge y c.vbiEnd with hmain | hfill
  · have hlines : (vdisp c y || vfirst c y) = decide (y ≤ c.vbiStart) := by
      rw [vdisp, vfirst, ← Bool.decide_or, decide_eq_decide, Nat.le_iff_lt_or_eq]
    rw [← hlines]
    exact tableGives_main hc x hmain .blankStart
  · have hstart := (Cfg.facts hc).vbiStart_lt_vbiEnd
    rw [decide_eq_false (show ¬ y ≤ c.vbiStart by omega), Bool.and_false]
    exact tableGives_filler hc x hfill (by decide) (by decide)

/-- `BLANK_END` at every address: `IRQ_RECOVERY` columns before `HBI_END`, on the display lines and the last blanking
line (R74). -/
theorem tableGives_blankEnd {c : Cfg} (hc : c.valid = true) (x y : Nat) :
    TableGives c x y .blankEnd
      (decide (x + c.irqRecovery = c.hbiEnd) && (decide (y < c.vbiStart) || decide (y + 1 = c.vbiEnd))) := by
  rcases Nat.lt_or_ge y c.vbiEnd with hmain | hfill
  · exact tableGives_main hc x hmain .blankEnd
  · have hstart := (Cfg.facts hc).vbiStart_lt_vbiEnd
    rw [decide_eq_false (show ¬ y < c.vbiStart by omega), decide_eq_false (show ¬ y + 1 = c.vbiEnd by omega),
      Bool.or_false, Bool.and_false]
    exact tableGives_filler hc x hfill (by decide) (by decide)

/-- `VBLANK_PULSE` at every address: the first lines of the vertical blanking, as many as its width (R69). -/
theorem tableGives_vblankPulse {c : Cfg} (hc : c.valid = true) (x y : Nat) :
    TableGives c x y .vblankPulse (decide (c.vbiStart ≤ y) && decide (y < c.vbiStart + c.vpulseWidth)) := by
  rcases Nat.lt_or_ge y c.vbiEnd with hmain | hfill
  · exact tableGives_main hc x hmain .vblankPulse
  · have hfits := (Cfg.facts hc).pulse
    rw [decide_eq_false (show ¬ y < c.vbiStart + c.vpulseWidth by omega), Bool.and_false]
    exact tableGives_filler hc x hfill (by decide) (by decide)

/-- The lines of the pulse lie between the display lines and the filler rows (clause (d) of R8). -/
theorem vPhase_of_pulse {c : Cfg} (hF : c.Facts) {y : Nat} (hlo : c.vbiStart ≤ y)
    (hhi : y < c.vbiStart + c.vpulseWidth) : vPhase c y ≠ .vdisp ∧ vPhase c y ≠ .vfill := by
  have hfits := hF.pulse
  have hy : y < 256 := by have := hF.vend; omega
  have hholds := holdsAt_vPhase c hy
  constructor
  · intro h
    rw [h, VPhase.holdsAt, decide_eq_true_eq] at hholds
    omega
  · intro h
    rw [h, VPhase.holdsAt, decide_eq_true_eq] at hholds
    omega

/-- Settles O16: the three strobes at every address; clause (c) of R8 puts the `BLANK_END` column into the back porch,
clause (d) the pulse into the vertical blanking. -/
theorem strobeBitsOfTheTable : Obligations.StrobeBitsOfTheTable := by
  intro c hc x _ y _
  have hF := Cfg.facts hc
  refine ⟨tableGives_blankStart hc x y, tableGives_blankEnd hc x y, tableGives_vblankPulse hc x y, fun hcol => ?_,
    vPhase_of_pulse hF⟩
  have hirq := hF.irq
  have hfits := hF.irqFits
  exact hPhase_eq_of_holdsAt hF (p := .hbp) (decide_eq_true (by omega))

/-! ### The filler rows (R75 to R78) -/

/-- Under a pulse policy each reset bit of a filler row is 0 exactly at the pulse (R76, R77). -/
theorem fillerSignals_get_reset {c : Cfg} (hp : c.fillerPolicy ≠ .sustained) (x y : Nat) {sig : Signal}
    (hsig : sig = .hresetN ∨ sig = .vresetN) : (fillerSignals c x y).get sig = !fillerPulse c x y := by
  rw [fillerSignals, if_neg hp]
  rcases hsig with rfl | rfl <;> rfl

/-- Under `SUSTAINED` a filler row is 0 throughout (R78). -/
theorem fillerSignals_of_sustained {c : Cfg} (hp : c.fillerPolicy = .sustained) (x y : Nat) :
    fillerSignals c x y = Signals.zero :=
  if_pos hp

/-- Under `SINGLE_PULSE` the pulse is at one address (R76). -/
theorem fillerPulse_of_singlePulse {c : Cfg} (hp : c.fillerPolicy = .singlePulse) (x y : Nat) :
    fillerPulse c x y = decide (x = c.hbiEnd ∧ y = c.vbiEnd) := by
  simp [fillerPulse, hp]

/-- Under `PER_LINE` the pulse is in one column of every filler row (R77). -/
theorem fillerPulse_of_perLine {c : Cfg} (hp : c.fillerPolicy = .perLine) (x y : Nat) :
    fillerPulse c x y = decide (x = c.hbiEnd) := by
  simp [fillerPulse, hp]

/-- The record with every signal 0 reads 0 at each (R75). -/
@[simp] theorem Signals.zero_get (sig : Signal) : Signals.zero.get sig = false := by cases sig <;> rfl

/-- The record with every signal 0 is packed to the byte 0 (R50). -/
theorem pack_zero (lay : Layout) : pack lay Signals.zero = 0#8 := by
  refine BitVec.eq_of_getLsbD_eq fun n _ => ?_
  rw [pack_getLsbD]
  simp

/-- Under `SUSTAINED` the table's byte in a filler row is 0 (R78). -/
theorem tableByte_of_sustained {c : Cfg} (hp : c.fillerPolicy = .sustained) (x : Nat) {y : Nat} (hy : c.vbiEnd ≤ y) :
    tableByte c x y = 0#8 := by
  rw [tableByte, signals_of_filler hy, fillerSignals_of_sustained hp, pack_zero]

/-- Settles O17: the signals that no policy touches, the two resets by policy, and the byte 0. -/
theorem fillerRowsFollowThePolicy : Obligations.FillerRowsFollowThePolicy := by
  intro c hc x _ y _ hy
  refine ⟨fun sig hh hv => tableGives_filler hc x hy hh hv, fun sig hsig => ⟨fun hp => ?_, fun hp => ?_, fun hp => ?_⟩,
    fun hp => tableByte_of_sustained hp x hy⟩
  · refine tableGives_of_get hc ?_
    rw [signals_of_filler hy, fillerSignals_get_reset (by rw [hp]; decide) x y hsig, fillerPulse_of_singlePulse hp]
  · refine tableGives_of_get hc ?_
    rw [signals_of_filler hy, fillerSignals_get_reset (by rw [hp]; decide) x y hsig, fillerPulse_of_perLine hp]
  · refine tableGives_of_get hc ?_
    rw [signals_of_filler hy, fillerSignals_of_sustained hp, Signals.zero_get]

/-! ### The display window (R80) -/

/-- The record of the display window (R80). -/
theorem signals_of_display {c : Cfg} (hF : c.Facts) {x y : Nat} (hx : x < c.hbiStart) (hy : y < c.vbiStart) :
    signals c x y = { Signals.idle with display := true } := by
  obtain ⟨hbi, hsy, hbp, -, vbi, vsy, vbp, -, -, hirq, -, -, -, -, -, -⟩ := hF
  rw [signals_of_main (by omega), mainSignals, hresetColumn_of_lt (show x < c.hbiEnd by omega),
    decide_eq_true hx, decide_eq_true hy, decide_eq_false (show ¬ c.vbiStart ≤ y by omega),
    decide_eq_false (show ¬ c.vsyStart ≤ y by omega), decide_eq_false (show ¬ c.hbiStart ≤ x by omega),
    decide_eq_false (show ¬ c.hsyStart ≤ x by omega), decide_eq_false (show ¬ x = c.hbiStart by omega),
    decide_eq_false (show ¬ x + c.irqRecovery = c.hbiEnd by omega)]
  rfl

/-- Settles O21: the five signals and the byte of the window's record. -/
theorem displayWindowOfTheTable : Obligations.DisplayWindowOfTheTable := by
  intro c hc x hx y hy
  have hrecord := signals_of_display (Cfg.facts hc) hx hy
  have hgives (sig : Signal) : TableGives c x y sig (Signals.get { Signals.idle with display := true } sig) :=
    tableGives_of_get hc (by rw [hrecord])
  refine ⟨hgives .display, hgives .hsyncN, hgives .vsyncN, hgives .hblank, hgives .vblank, fun href => ?_⟩
  rw [tableByte, hrecord, href]
  decide

/-! ### How many addresses clear the counters (R83) -/

/-- The horizontal reset bit of a table byte is the record's (R51, R62). -/
theorem bitOf_hresetN_tableByte {c : Cfg} (hc : c.valid = true) (x y : Nat) :
    bitOf c.layout .hresetN (tableByte c x y) = (signals c x y).hresetN := by
  obtain ⟨p, hp⟩ := (Cfg.facts hc).hres
  exact bitOf_tableByte hc (sig := .hresetN) hp x y

/-- The vertical reset bit of a table byte is the record's (R51, R62). -/
theorem bitOf_vresetN_tableByte {c : Cfg} (hc : c.valid = true) (x y : Nat) :
    bitOf c.layout .vresetN (tableByte c x y) = (signals c x y).vresetN := by
  obtain ⟨p, hp⟩ := (Cfg.facts hc).vres
  exact bitOf_tableByte hc (sig := .vresetN) hp x y

/-- The record asks for a horizontal clear: in main rows in the policy's columns, in filler rows at the pulse, or
everywhere under `SUSTAINED` (R72, R76 to R78). -/
theorem hresetN_eq_false_iff (c : Cfg) (x y : Nat) :
    (signals c x y).hresetN = false ↔ (y < c.vbiEnd ∧ hresetColumn c x = true) ∨
      (c.vbiEnd ≤ y ∧ (c.fillerPolicy = .sustained ∨ fillerPulse c x y = true)) := by
  rcases Nat.lt_or_ge y c.vbiEnd with hy | hy
  · rw [signals_of_main hy]
    simp [mainSignals, hy]
  · rw [signals_of_filler hy]
    by_cases hp : c.fillerPolicy = .sustained
    · simp [fillerSignals_of_sustained hp, hp, hy, Signals.zero]
    · have hbit := fillerSignals_get_reset hp x y (Or.inl rfl)
      rw [show (fillerSignals c x y).hresetN = !fillerPulse c x y from hbit]
      simp [hp, hy]

/-- The record asks for a vertical clear: in filler rows alone, where it asks for a horizontal one (R68). -/
theorem vresetN_eq_false_iff (c : Cfg) (x y : Nat) :
    (signals c x y).vresetN = false ↔ c.vbiEnd ≤ y ∧ (signals c x y).hresetN = false := by
  refine ⟨filler_of_vresetN_eq_false, fun ⟨hy, hh⟩ => ?_⟩
  rw [signals_of_filler hy] at hh ⊢
  exact (fillerSignals_vresetN c x y).trans hh

/-- An address clears both counters: in filler rows, at the pulse or under `SUSTAINED` (R76 to R78). -/
theorem clears_both_iff (c : Cfg) (x y : Nat) :
    ((signals c x y).hresetN = false ∧ (signals c x y).vresetN = false) ↔
      c.vbiEnd ≤ y ∧ (c.fillerPolicy = .sustained ∨ fillerPulse c x y = true) := by
  rw [vresetN_eq_false_iff, hresetN_eq_false_iff]
  rcases Nat.lt_or_ge y c.vbiEnd with hy | hy
  · simp [Nat.not_le.2 hy]
  · simp [Nat.not_lt.2 hy, hy]

/-- The lines from a bound on, counted. -/
theorem card_rows_from {b : Nat} (hb : b ≤ 255) :
    (Finset.univ.filter fun y : Fin 256 => b ≤ y.val).card = 256 - b := by
  have hIci : (Finset.univ.filter fun y : Fin 256 => b ≤ y.val) = Finset.Ici ⟨b, by omega⟩ := by
    ext y
    simp [Fin.le_def]
  rw [hIci, Fin.card_Ici]

/-- Settles O22: the addresses that clear are described one by one, and counted as columns times rows. -/
theorem fillerPulseCounts : Obligations.FillerPulseCounts := by
  intro c hc hh hv
  simp only [bitOf_hresetN_tableByte hc, bitOf_vresetN_tableByte hc]
  refine ⟨fun hp p => ?_, fun hp => ?_, fun hp => ?_⟩
  · have hns : c.fillerPolicy ≠ .sustained := by rw [hp]; decide
    rw [vresetN_eq_false_iff, hresetN_eq_false_iff, fillerPulse_of_singlePulse hp, decide_eq_true_eq]
    rcases Nat.lt_or_ge p.2.val c.vbiEnd with hy | hy
    · simp [hns, Nat.not_le.2 hy, hy.ne]
    · simp [hns, Nat.not_lt.2 hy, hy]
  · have hset : (Finset.univ.filter fun p : Fin 256 × Fin 256 =>
          (signals c p.1.val p.2.val).hresetN = false ∧ (signals c p.1.val p.2.val).vresetN = false) =
        {⟨c.hbiEnd, by omega⟩} ×ˢ (Finset.univ.filter fun y : Fin 256 => c.vbiEnd ≤ y.val) := by
      ext ⟨x, y⟩
      simp only [Finset.mem_product, Finset.mem_singleton, Finset.mem_filter, Finset.mem_univ, true_and,
        clears_both_iff, fillerPulse_of_perLine hp, hp, decide_eq_true_eq, Fin.ext_iff, reduceCtorEq, false_or,
        and_comm]
    rw [hset, Finset.card_product, card_rows_from hv, Finset.card_singleton, Nat.one_mul]
  · have hset : (Finset.univ.filter fun p : Fin 256 × Fin 256 =>
          (signals c p.1.val p.2.val).hresetN = false ∧ (signals c p.1.val p.2.val).vresetN = false) =
        Finset.univ ×ˢ (Finset.univ.filter fun y : Fin 256 => c.vbiEnd ≤ y.val) := by
      ext ⟨x, y⟩
      simp [clears_both_iff, hp]
    rw [hset, Finset.card_product, card_rows_from hv, Finset.card_univ, Fintype.card_fin]

end Sys2Proof.Machine

/-! PROOFS. The table compiler (40_content_table.md, 20_memory.md): what each classifier adds to a record, the bytes
that the writer emits, and what programming a sequence of bytes makes the ROM read as. -/

namespace Sys2Proof.Machine

/-! ### The composer's three steps (R63, R85) -/

/-- The composer's own step writes the display bit alone (R63). -/
theorem composeDisplay_eq (c : Cfg) (x y : Nat) (r : Signals) :
    composeDisplay c x y r =
      { r with display := r.display || decide (hPhase c x = .hdisp ∧ vPhase c y = .vdisp) } := by
  unfold composeDisplay
  split <;> simp [*]

/-- The vertical classifier writes the blanking, the sync and the pulse of its line (R66, R67, R69). -/
theorem classifyVertical_eq (c : Cfg) (y : Nat) (r : Signals) :
    classifyVertical c y r = { r with
      vblank := r.vblank || decide (vPhase c y ≠ .vdisp ∧ vPhase c y ≠ .vfill)
      vsyncN := r.vsyncN && !decide (vPhase c y = .vsync)
      vblankPulse := r.vblankPulse || decide (c.vbiStart ≤ y ∧ y < c.vbiStart + c.vpulseWidth) } := by
  unfold classifyVertical
  by_cases hpulse : c.vbiStart ≤ y ∧ y < c.vbiStart + c.vpulseWidth
  · cases vPhase c y <;> simp [hpulse]
  · cases vPhase c y <;> simp [hpulse]

/-- The horizontal classifier writes the blanking, the sync, the reset and two strobes of its column (R70 to R74). -/
theorem classifyHorizontalAt_eq (c : Cfg) (x y : Nat) (r : Signals) :
    classifyHorizontalAt c x y r = { r with
      hblank := r.hblank || decide (hPhase c x ≠ .hdisp)
      hsyncN := r.hsyncN && !decide (hPhase c x = .hsync)
      hresetN := if hPhase c x = .htail then !hresetColumn c x else r.hresetN
      blankStart := r.blankStart || decide (x = c.hbiStart ∧ (vdisp c y || vfirst c y) = true)
      blankEnd := r.blankEnd || decide (x + c.irqRecovery = c.hbiEnd ∧ (vdisp c y || vlast c y) = true) } := by
  unfold classifyHorizontalAt classifyHorizontal
  by_cases hstart : x = c.hbiStart ∧ (vdisp c y || vfirst c y) = true
  · by_cases hend : x + c.irqRecovery = c.hbiEnd ∧ (vdisp c y || vlast c y) = true
    · simp only [eq_true hstart, eq_true hend]
      cases hPhase c x <;> simp
    · simp only [eq_true hstart, eq_false hend]
      cases hPhase c x <;> simp
  · by_cases hend : x + c.irqRecovery = c.hbiEnd ∧ (vdisp c y || vlast c y) = true
    · simp only [eq_false hstart, eq_true hend]
      cases hPhase c x <;> simp
    · simp only [eq_false hstart, eq_false hend]
      cases hPhase c x <;> simp

/-- A line lies in a vertical interval exactly when it is the one that the phase names (R60). -/
theorem holdsAt_iff_vPhase_eq {c : Cfg} (hF : c.Facts) {y : Nat} (hy : y < 256) (p : VPhase) :
    p.holdsAt c y = true ↔ vPhase c y = p :=
  ⟨vPhase_eq_of_holdsAt hF, fun hp => hp ▸ holdsAt_vPhase c hy⟩

/-- The three steps in the source's order make the record of a main row (R63). -/
theorem classifiers_compose {c : Cfg} (hF : c.Facts) {x y : Nat} (hx : x < 256) (hy : y < c.vbiEnd) :
    classifyHorizontalAt c x y (classifyVertical c y (composeDisplay c x y Signals.idle)) = mainSignals c x y := by
  have hy256 : y < 256 := hy.trans_le hF.vend
  have hdisp := holdsAt_iff_hPhase_eq hF hx .hdisp
  have hsync := holdsAt_iff_hPhase_eq hF hx .hsync
  have htail := holdsAt_iff_hPhase_eq hF hx .htail
  have vdisp' := holdsAt_iff_vPhase_eq hF hy256 .vdisp
  have vsync := holdsAt_iff_vPhase_eq hF hy256 .vsync
  have vfill := holdsAt_iff_vPhase_eq hF hy256 .vfill
  simp only [HPhase.holdsAt, VPhase.holdsAt, decide_eq_true_eq, hx, hy256, and_true]
    at hdisp hsync htail vdisp' vsync vfill
  have hreset : (if c.hbiEnd ≤ x then !hresetColumn c x else true) = !hresetColumn c x := by
    split
    · rfl
    · rw [hresetColumn_of_lt (by omega), Bool.not_false]
  rw [composeDisplay_eq, classifyVertical_eq, classifyHorizontalAt_eq]
  simp only [ne_eq, ← hdisp, ← hsync, ← htail, ← vdisp', ← vsync, ← vfill, mainSignals, Signals.idle, hreset]
  simp [hy]

/-- Settles O18: main rows by the three steps, filler rows by the composer's branch; the steps write fields of their own
and read none that another writes. -/
theorem composerComputesTheRecord : Obligations.ComposerComputesTheRecord := by
  refine ⟨fun c hc x hx y hy => ?_, fun c x y r => ⟨?_, ?_, ?_⟩⟩
  · have hF := Cfg.facts hc
    have hfill := holdsAt_iff_vPhase_eq hF hy .vfill
    simp only [VPhase.holdsAt, hy, and_true, decide_eq_true_eq] at hfill
    unfold composeSignals
    split
    · next hphase => rw [signals_of_filler (hfill.2 hphase)]
    · next hphase =>
      have hmain : y < c.vbiEnd := Nat.lt_of_not_le fun h => hphase (hfill.1 h)
      rw [signals_of_main hmain, classifiers_compose hF hx hmain]
  · simp only [classifyVertical_eq, classifyHorizontalAt_eq]
  · simp only [classifyVertical_eq, composeDisplay_eq]
  · simp only [classifyHorizontalAt_eq, composeDisplay_eq]

end Sys2Proof.Machine

/-! PROOFS. The bytes of the table (20_memory.md section 2): the writer's order, and programming a ROM. -/

namespace Sys2Proof.Machine

/-- Rows of equal length written one after the other are one row, numbered through. -/
theorem flatMap_rows_eq_map_range {α : Type} (m n : Nat) (f : Nat → Nat → α) (hn : 0 < n) :
    ((List.range m).flatMap fun y => (List.range n).map fun x => f x y) =
      (List.range (m * n)).map fun k => f (k % n) (k / n) := by
  induction m with
  | zero => simp
  | succ m ih =>
    rw [List.range_succ, List.flatMap_append, ih, Nat.succ_mul, List.range_add, List.map_append]
    congr 1
    simp only [List.flatMap_cons, List.flatMap_nil, List.append_nil, List.map_map]
    refine List.map_congr_left fun x hx => ?_
    have hxn : x < n := List.mem_range.1 hx
    simp [Nat.mod_eq_of_lt hxn, Nat.add_div_of_dvd_right, Nat.div_eq_of_lt hxn, hn]

/-- The table writer emits the image's bytes in address order (R34, R63). -/
theorem emitTable_eq_map_imageByte {c : Cfg} (hc : c.valid = true) :
    emitTable c = (List.range 65536).map (imageByte c) := by
  unfold emitTable
  rw [flatMap_rows_eq_map_range 256 256 (fun x y => pack c.layout (composeSignals c x y)) (by decide)]
  refine List.map_congr_left fun k hk => ?_
  have hk' : k < 256 * 256 := List.mem_range.1 hk
  rw [(composerComputesTheRecord).1 c hc (k % 256) (Nat.mod_lt _ (by decide)) (k / 256) (by omega)]
  rfl

/-- A cell is listed for a programmed byte exactly where it differs from the image's (R32, R36). -/
theorem Memory.mem_ofBytes_iff (c : Cfg) (bytes : List Byte) (cell : Host.Cell) :
    cell ∈ Memory.ofBytes c bytes ↔ bytes[cell.1]? = some cell.2 ∧ cell.2 ≠ imageByte c cell.1 := by
  obtain ⟨a, b⟩ := cell
  simp only [Memory.ofBytes, List.mem_filter, List.mem_map, decide_eq_true_eq, Prod.exists, Prod.mk.injEq]
  refine and_congr_left fun _ => ⟨?_, fun h => ⟨b, a, List.mk_mem_zipIdx_iff_getElem?.2 h, rfl, rfl⟩⟩
  rintro ⟨b', a', hmem, rfl, rfl⟩
  exact List.mk_mem_zipIdx_iff_getElem?.1 hmem

/-- Where addresses rise, a listed cell is found at its address. -/
theorem Memory.lookup_of_mem {m : Memory} (hm : m.Pairwise fun p q => p.1 < q.1) {cell : Host.Cell} (h : cell ∈ m) :
    m.lookup cell.1 = some cell.2 := by
  induction m with
  | nil => cases h
  | cons first rest ih =>
    obtain ⟨hfirst, hrest⟩ := List.pairwise_cons.1 hm
    rw [show first = (first.1, first.2) from rfl, List.lookup_cons]
    rcases List.mem_cons.1 h with rfl | hmem
    · simp
    · rw [beq_false_of_ne (hfirst cell hmem).ne']
      exact ih hrest hmem

/-- In a ROM in canonical form a listed cell is what its address reads as (R30). -/
theorem Memory.read_of_mem {c : Cfg} {m : Memory} (hm : Memory.wf c m) {cell : Host.Cell} (h : cell ∈ m) :
    Memory.read c m cell.1 = cell.2 := by
  rw [Memory.read_eq, Memory.lookup_of_mem hm.1 h, Option.getD_some]

/-- A programmed ROM reads at each address as the byte programmed there (R33, R36). -/
theorem Memory.read_of_load {c : Cfg} {bytes : List Byte} {m : Memory} (hm : Memory.load c bytes = .ok m) {a : Nat}
    {b : Byte} (hb : bytes[a]? = some b) : Memory.read c m a = b := by
  obtain ⟨-, -, hcells⟩ := (Memory.load_eq_ok_iff c bytes m).1 hm
  by_cases himage : b = imageByte c a
  · have hnone : m.lookup a = none := by
      refine Memory.lookup_eq_none fun cell hmem hcell => ?_
      obtain ⟨hbyte, hne⟩ := (Memory.mem_ofBytes_iff c bytes cell).1 (hcells ▸ hmem)
      rw [hcell, hb, Option.some.injEq] at hbyte
      exact hne (by rw [← hbyte, hcell, himage])
    rw [Memory.read_eq, hnone, himage, Option.getD_none]
  · have hmem : (a, b) ∈ m := hcells ▸ (Memory.mem_ofBytes_iff c bytes (a, b)).2 ⟨hb, himage⟩
    exact Memory.read_of_mem (Memory.load_wf hm) hmem

/-- Settles O20: the length decides whether the bytes are programmed, and a programmed byte is what is read. -/
theorem imageByteIsTheRomByte : Obligations.ImageByteIsTheRomByte := by
  intro c bytes hc
  refine ⟨fun hlen => ⟨_, (Memory.load_eq_ok_iff c bytes _).2 ⟨hc, hlen, rfl⟩⟩, fun hlen => ?_, fun m hm a ha => ?_⟩
  · rw [Memory.load, (configurationError_eq_none_iff c).2 hc]
    exact if_neg hlen
  · obtain ⟨-, hlen, -⟩ := (Memory.load_eq_ok_iff c bytes m).1 hm
    have hb : bytes[a]? = some (bytes[a]'(hlen ▸ ha)) := List.getElem?_eq_getElem _
    rw [Memory.read_of_load hm hb, hb]

/-- Programming the image lists nothing (R32, R36). -/
theorem Memory.ofBytes_image (c : Cfg) : Memory.ofBytes c ((List.range 65536).map (imageByte c)) = [] := by
  refine List.eq_nil_iff_forall_not_mem.2 fun cell hmem => ?_
  obtain ⟨hbyte, hne⟩ := (Memory.mem_ofBytes_iff c _ cell).1 hmem
  rw [List.getElem?_map, Option.map_eq_some_iff] at hbyte
  obtain ⟨a, ha, himage⟩ := hbyte
  obtain ⟨hlt, hnumber⟩ := List.getElem?_eq_some_iff.1 ha
  rw [List.getElem_range] at hnumber
  exact hne (by rw [hnumber, himage])

/-- Settles O19: the writer's bytes are the image's, which program to the ROM with nothing listed. -/
theorem tableWriterEmitsTheImage : Obligations.TableWriterEmitsTheImage := by
  intro c hc
  have hwrite : writeTable c = .ok (emitTable c) := (writeTable_eq_ok_iff c _).2 ⟨hc, rfl⟩
  have hlen : (emitTable c).length = romSize := by
    rw [emitTable_eq_map_imageByte hc, List.length_map, List.length_range]
  have hload : Memory.load c (emitTable c) = .ok [] :=
    (Memory.load_eq_ok_iff c _ _).2 ⟨hc, hlen, by rw [emitTable_eq_map_imageByte hc, Memory.ofBytes_image]⟩
  refine ⟨emitTable c, hwrite, hlen, fun k hk => ?_, hload, fun h v l => ?_⟩
  · rw [emitTable_eq_map_imageByte hc, List.getElem?_map, List.getElem?_range hk]
    rfl
  · exact (buildMachine_eq_ok_iff c h v l _).2 ⟨_, _, hwrite, hload, rfl⟩

end Sys2Proof.Machine

/-! PROOFS. The four operations and the edge (41_clock_step.md): what each operation answers, the step function in one
piece, and which states step. -/

namespace Sys2Proof.Machine

/-! ### The operations, one by one (R92 to R95) -/

/-- What every operation does beside the counters: the latch loads the addressed byte, which at a machine is the
table's, and nothing else is written (R29, R89). -/
theorem exec_latch_and_frame {i : Instr} {s t : State} (h : exec i s = .next t) :
    t.l = Memory.read s.cfg s.rom (s.v.toNat * 256 + s.h.toNat) ∧
      (Sound s → t.l = tableByte s.cfg s.h.toNat s.v.toNat) ∧
      t.cfg = s.cfg ∧ t.rom = s.rom ∧ ∀ a, Memory.read t.cfg t.rom a = Memory.read s.cfg s.rom a := by
  obtain ⟨hh, vv, hexec⟩ := exec_eq_next i s
  obtain rfl := next_inj.1 (hexec.symm.trans h)
  exact ⟨romData_eq_read s, fun hs => romData_of_isImage hs.2, rfl, rfl, fun _ => rfl⟩

/-- A counter holds 255 as a number exactly when it holds the byte (R96). -/
theorem eq_255_iff_toNat (b : Byte) : b = 255#8 ↔ b.toNat = 255 :=
  BitVec.toNat_inj.symm

/-- The vertical counter after an edge that counts it under a condition (R98). -/
theorem toNat_ite_countUp (p : Prop) [Decidable p] (b : Byte) :
    (if p then countUp b else b).toNat = if p then (b.toNat + 1) % 256 else b.toNat := by
  split
  · exact countUp_toNat b
  · rfl

/-- Settles O27: the meaning by definition, its counters as numbers, and what every operation leaves. -/
theorem countCompletes : Obligations.CountCompletes := by
  intro s
  have hexec : exec .count s = .next _ := rfl
  refine ⟨_, hexec, countUp_toNat s.h, ?_, exec_latch_and_frame hexec⟩
  simp only [State.edge_v, toNat_ite_countUp, eq_255_iff_toNat]

/-- Settles O28: as for `COUNT`; the bit that decides is read in the addressed byte. -/
theorem hclrCompletes : Obligations.HclrCompletes := by
  intro s
  have hexec : exec .hclr s = .next _ := rfl
  refine ⟨_, hexec, cleared_toNat, ?_, exec_latch_and_frame hexec⟩
  rw [State.edge_v, toNat_ite_countUp, dataHresetN, romData_eq_read]

/-- Settles O29: as for `COUNT`; the vertical counter is cleared at every column. -/
theorem vclrCompletes : Obligations.VclrCompletes := by
  intro s
  have hexec : exec .vclr s = .next _ := rfl
  exact ⟨_, hexec, countUp_toNat s.h, cleared_toNat, exec_latch_and_frame hexec⟩

/-- Settles O30: as for `COUNT`; both counters are cleared. -/
theorem hvclrCompletes : Obligations.HvclrCompletes := by
  intro s
  have hexec : exec .hvclr s = .next _ := rfl
  exact ⟨_, hexec, cleared_toNat, cleared_toNat, exec_latch_and_frame hexec⟩

/-! ### The step function in one piece (R91, R96 to R98) -/

/-- Settles O31: a word decodes to one operation, and that is the one that a machine's step runs. -/
theorem stepRunsTheDecodedOperation : Obligations.StepRunsTheDecodedOperation := by
  intro s i hs hdecode
  rw [decode_singleton, Except.ok.injEq] at hdecode
  rw [step_of_sound hs, ← hdecode]
  rfl

/-- The meaning of the operation that the latch selects is the step function, for each pair of reset bits (R91). -/
theorem exec_decodeWord_eq_clockStep (s : State) : exec (decodeWord s.cfg.layout s.l) s = .next (clockStep s) := by
  have hop : decodeWord s.cfg.layout s.l = opOfBits (latchHresetN s) (latchVresetN s) := rfl
  rw [hop, clockStep, lineEnd, releases, wraps, hclr, vclr]
  cases latchHresetN s with
  | true =>
    cases latchVresetN s with
    | true => simp [opOfBits, exec, execCount]
    | false => simp [opOfBits, exec, execVclr]
  | false =>
    cases latchVresetN s with
    | true => simp [opOfBits, exec, execHclr]
    | false => simp [opOfBits, exec, execHvclr]

/-- A machine's step answers the state of the step function (R91). -/
theorem Sound.step_eq {s : State} (hs : Sound s) : step s = .next (clockStep s) :=
  (step_of_sound hs).trans (exec_decodeWord_eq_clockStep s)

/-- Settles O32: the dispatched meaning is the step function. -/
theorem stepIsTheStepFunction : Obligations.StepIsTheStepFunction :=
  fun _ hs => hs.step_eq

/-- At a machine a line end is a release or a wrap, told by the latch and the table's byte (R97). -/
theorem Sound.lineEnd_iff {s : State} (hs : Sound s) : lineEnd s = true ↔ ReleasesAt s ∨ WrapsAt s := by
  simp [lineEnd, releases, wraps, hclr, latchHresetN, dataHresetN, romData_of_isImage hs.2, ReleasesAt, WrapsAt,
    eq_255_iff_toNat]

/-- Settles O33: the counters of the step function, by the latch's reset bits and the line end. -/
theorem countersFollowTheUpdateLaws : Obligations.CountersFollowTheUpdateLaws := by
  intro s hs
  refine ⟨fun ⟨⟨hlow, _⟩, hhigh, _⟩ => by simp [hlow] at hhigh, clockStep s, hs.step_eq, fun hh => ?_, fun hh => ?_,
    fun hv => ?_, fun hv hend => ?_, fun hv hend => ?_⟩
  · simp [clockStep, hclr, latchHresetN, hh]
  · simp [clockStep, hclr, latchHresetN, hh, countUp_toNat]
  · simp [clockStep, vclr, latchVresetN, hv]
  · simp [clockStep, vclr, latchVresetN, hv, hs.lineEnd_iff.2 hend, countUp_toNat]
  · simp [clockStep, vclr, latchVresetN, hv, Bool.eq_false_iff.2 (mt hs.lineEnd_iff.1 hend)]

/-! ### Which states step (R28, R44, R100 to R102) -/

/-- An edge leaves a machine a machine: it writes neither the configuration nor the ROM (R24, R40). -/
theorem Sound.of_step {s t : State} (hs : Sound s) (h : step s = .next t) : Sound t := by
  obtain ⟨hcfg, hrom⟩ := step_keeps_cfg_rom h
  rw [Sound, hcfg, hrom]
  exact hs

/-- A machine runs for any number of edges (R28, R102). -/
theorem Sound.exists_runs (n : Nat) {s : State} (hs : Sound s) : ∃ t, Runs n s t := by
  induction n generalizing s with
  | zero => exact ⟨s, (runs_zero s s).2 rfl⟩
  | succ n ih =>
    obtain ⟨u, hu⟩ := hs.exists_step
    obtain ⟨t, ht⟩ := ih (hs.of_step hu)
    exact ⟨t, (runs_succ n s t).2 ⟨u, hu, ht⟩⟩

/-- Settles O35: a step that answers comes from a machine, and every edge of a machine answers. -/
theorem everyMachineStateRunsForever : Obligations.EveryMachineStateRunsForever :=
  ⟨fun _ => ⟨fun ⟨_, h⟩ => (step_next_inv h).1, Sound.exists_step⟩, fun n _ hs => hs.exists_runs n⟩

/-- Settles O36: the one error that the validity check finds is what each of the four operations answers. -/
theorem invalidConfigurationIsRefused : Obligations.InvalidConfigurationIsRefused := by
  intro c hc
  obtain ⟨k, herror, hk⟩ := configurationError_of_invalid hc
  have hwrite : writeTable c = .error (.configurationError k) := by rw [writeTable, herror]
  refine ⟨k, hk, hwrite, fun bytes => by rw [Memory.load, herror], fun h v l => by rw [buildMachine, hwrite], ?_⟩
  rintro s rfl
  rw [step, machineRefusal, herror]

/-- A ROM in canonical form that passes the image check lists nothing: what it listed would differ from the image (R32). -/
theorem Memory.isImage_iff_eq_nil {c : Cfg} {m : Memory} (hm : Memory.wf c m) : Memory.isImage c m = true ↔ m = [] := by
  refine ⟨fun himage => List.eq_nil_iff_forall_not_mem.2 fun cell hmem => ?_, fun h => by rw [h, Memory.isImage_nil]⟩
  obtain ⟨-, hne⟩ := hm.2 cell hmem
  exact hne ((Memory.read_of_mem hm hmem).symm.trans (Memory.read_of_isImage himage cell.1))

/-- Settles O26: the image check fails where a read differs, and passes in canonical form on the empty list alone. -/
theorem romOtherThanTheTableIsRefused : Obligations.RomOtherThanTheTableIsRefused := by
  refine ⟨fun s hc ⟨a, _, hread⟩ => ?_, fun c m hm => Memory.isImage_iff_eq_nil hm⟩
  have himage : Memory.isImage s.cfg s.rom = false := Memory.isImage_false_of_read hread
  simp [step, machineRefusal, (configurationError_eq_none_iff _).2 hc, himage]

/-! ### Power-up (R113 to R117, R126) -/

/-- Every power-up state of a valid configuration is a machine of the block (R28, R117). -/
theorem sound_powerUp {c : Cfg} (hc : c.valid = true) (h v l : Byte) : Sound (State.powerUp c h v l) :=
  ⟨hc, Memory.isImage_nil c⟩

/-- Settles O37: the step of a power-up state runs the drawn latch's operation, which is `HVCLR` where both reset bits
are 0; an operation's own word is a draw that selects it. -/
theorem firstEdgeRunsTheDrawnLatch : Obligations.FirstEdgeRunsTheDrawnLatch := by
  intro c hc
  refine ⟨fun h v l => ⟨step_of_sound (sound_powerUp hc h v l), rfl, fun hh hv => ?_⟩, fun i => ?_⟩
  · have hop : decodeWord c.layout l = .hvclr := (decodeWord_eq_iff_bits _ _ _).2 ⟨hh, hv⟩
    calc step (State.powerUp c h v l)
        = exec .hvclr (State.powerUp c h v l) := (step_of_sound (sound_powerUp hc h v l)).trans (by rw [← hop]; rfl)
      _ = .next ((State.powerUp c h v l).edge 0#8 0#8 (romData (State.powerUp c h v l))) := rfl
      _ = _ := by rw [romData_of_isImage (Memory.isImage_nil c)]; rfl
  · obtain ⟨p, q, hp, hq, hpq⟩ := (Layout.carriesOp_iff _).1 (Cfg.carriesOp hc)
    exact ⟨encodeWithOutputs c.layout i 0#8, decodeWord_encodeWithOutputs hp hq hpq i 0#8⟩

/-! ### Settled machines (R52, R55, R89) -/

/-- One edge settles a machine whose ROM is in canonical form: the latch loads a byte of the table (R89). -/
theorem settled_of_step {s t : State} (hwf : Memory.wf s.cfg s.rom) (h : step s = .next t) : Settled t := by
  obtain ⟨hs, -⟩ := step_next_inv h
  refine ⟨hs.of_step h, ?_, s.h.toNat, s.h.isLt, s.v.toNat, s.v.isLt, step_latch_eq_tableByte h⟩
  obtain ⟨hcfg, hrom⟩ := step_keeps_cfg_rom h
  rwa [hcfg, hrom]

/-- Settles O40: one edge settles any machine, so a settled one too. -/
theorem settledLatchInvariant : Obligations.SettledLatchInvariant :=
  fun _ _ ⟨_, hwf, _⟩ h => settled_of_step hwf h

/-- Settles O41: the image is the empty list, and the latch 0 of `State.reset` is the scenario's byte at its one
filler pulse, `T(132, 244)`. -/
theorem resetIsSettled : Obligations.ResetIsSettled :=
  ⟨sound_powerUp (by decide) _ _ _, Memory.wf_nil _, 132, by decide, 244, by decide, by decide⟩

/-- Settles O42: one edge settles, and a table byte neither selects `VCLR` nor has an unassigned bit. -/
theorem settledLatchIsNeverVclr : Obligations.SettledLatchIsNeverVclr := by
  refine ⟨fun s t => settled_of_step, fun s ⟨⟨hc, _⟩, _, x, _, y, _, hl⟩ => ⟨?_, fun n hn => ?_⟩⟩
  · rw [Selects, hl]
    exact decodeWord_tableByte_ne_vclr hc x y
  · rw [hl]
    exact pack_getLsbD_of_unassigned hn _

end Sys2Proof.Machine

/-! PROOFS. Runs as iteration (41_clock_step.md, 70_reset_and_hazards.md): at a machine of the block an edge is a
function of the three registers as numbers, and a run of `n` edges is its `n`-th iterate. The statements about lines,
frames and synchronisation are about these iterates. -/

namespace Sys2Proof.Machine

/-! ### The registers as numbers, and one edge on them (R91, R96 to R98) -/

/-- The three registers, the counters as numbers. -/
structure Regs where
  /-- The horizontal counter. -/
  h : Nat
  /-- The vertical counter. -/
  v : Nat
  /-- The latch. -/
  l : Byte

/-- The registers of a state. -/
def State.regs (s : State) : Regs := ⟨s.h.toNat, s.v.toNat, s.l⟩

/-- The horizontal counter after an edge that runs the operation (R96). -/
def nextColumn (x : Nat) : Instr → Nat
  | .count => (x + 1) % 256
  | .hclr => 0
  | .vclr => (x + 1) % 256
  | .hvclr => 0

/-- The vertical counter after an edge that runs the operation at `(x, y)` (R97, R98). -/
def nextLine (c : Cfg) (x y : Nat) : Instr → Nat
  | .count => if x = 255 then (y + 1) % 256 else y
  | .hclr => if (signals c x y).hresetN then (y + 1) % 256 else y
  | .vclr => 0
  | .hvclr => 0

/-- The registers after one edge of a machine with the configuration (R91). -/
def Regs.next (c : Cfg) (r : Regs) : Regs :=
  ⟨nextColumn r.h (decodeWord c.layout r.l), nextLine c r.h r.v (decodeWord c.layout r.l), tableByte c r.h r.v⟩

/-- The counters and the latch of a state are its registers. -/
theorem at_iff_regs_eq (s : State) (x y : Nat) (w : Byte) : At s x y w ↔ s.regs = ⟨x, y, w⟩ := by
  rw [State.regs, Regs.mk.injEq]

/-- States of one machine with the same registers are equal. -/
theorem eq_of_regs_eq {s t : State} (hcfg : t.cfg = s.cfg) (hrom : t.rom = s.rom) (h : t.regs = s.regs) : t = s := by
  obtain ⟨hh, hv, hl⟩ := (at_iff_regs_eq t _ _ _).2 h
  exact State.eq_of_fields hcfg hrom (BitVec.toNat_inj.1 hh) (BitVec.toNat_inj.1 hv) hl

/-- What an operation makes of the registers of a machine, operation by operation (R92 to R95). -/
theorem regs_of_exec {s t : State} (hs : Sound s) {i : Instr} (h : exec i s = .next t) :
    t.regs = ⟨nextColumn s.h.toNat i, nextLine s.cfg s.h.toNat s.v.toNat i,
      tableByte s.cfg s.h.toNat s.v.toNat⟩ := by
  have hdata : romData s = tableByte s.cfg s.h.toNat s.v.toNat := romData_of_isImage hs.2
  have hbit : dataHresetN s = (signals s.cfg s.h.toNat s.v.toNat).hresetN := by
    rw [dataHresetN, hdata, bitOf_hresetN_tableByte hs.1]
  rw [← at_iff_regs_eq]
  cases i with
  | count =>
    obtain rfl := next_inj.1 h
    refine ⟨countUp_toNat s.h, ?_, hdata⟩
    simp only [State.edge_v, toNat_ite_countUp, eq_255_iff_toNat, nextLine]
  | hclr =>
    obtain rfl := next_inj.1 h
    refine ⟨cleared_toNat, ?_, hdata⟩
    rw [State.edge_v, toNat_ite_countUp, hbit, nextLine]
  | vclr =>
    obtain rfl := next_inj.1 h
    exact ⟨countUp_toNat s.h, cleared_toNat, hdata⟩
  | hvclr =>
    obtain rfl := next_inj.1 h
    exact ⟨cleared_toNat, cleared_toNat, hdata⟩

/-- An edge is `Regs.next` on the registers (R91). -/
theorem regs_of_step {s t : State} (h : step s = .next t) : t.regs = Regs.next s.cfg s.regs := by
  obtain ⟨hs, -⟩ := step_next_inv h
  exact regs_of_exec hs ((step_of_sound hs).symm.trans h)

/-- A run of a machine iterates `Regs.next`. -/
theorem regs_of_runs {n : Nat} {s t : State} (h : Runs n s t) : t.regs = (Regs.next s.cfg)^[n] s.regs := by
  induction n generalizing s with
  | zero => rw [(runs_zero s t).1 h, Function.iterate_zero_apply]
  | succ n ih =>
    obtain ⟨u, hu, hrest⟩ := (runs_succ n s t).1 h
    rw [ih hrest, (step_keeps_cfg_rom hu).1, regs_of_step hu, Function.iterate_succ_apply]

/-- Every run of a machine ends, in the iterate of its registers. -/
theorem Sound.exists_runs_regs {s : State} (hs : Sound s) (n : Nat) :
    ∃ t, Runs n s t ∧ t.regs = (Regs.next s.cfg)^[n] s.regs := by
  obtain ⟨t, ht⟩ := hs.exists_runs n
  exact ⟨t, ht, regs_of_runs ht⟩

/-- A run of a machine ends at the registers that the iterate has. -/
theorem Sound.exists_runs_at {s : State} (hs : Sound s) {n x y : Nat} {w : Byte}
    (h : (Regs.next s.cfg)^[n] s.regs = ⟨x, y, w⟩) : ∃ t, Runs n s t ∧ At t x y w := by
  obtain ⟨t, ht, hregs⟩ := hs.exists_runs_regs n
  exact ⟨t, ht, (at_iff_regs_eq t x y w).2 (hregs.trans h)⟩

/-- A machine is back after `n` edges exactly when its registers are: nothing else changes (R40). -/
theorem Sound.runs_self_iff {s : State} (hs : Sound s) (n : Nat) :
    Runs n s s ↔ (Regs.next s.cfg)^[n] s.regs = s.regs := by
  refine ⟨fun h => (regs_of_runs h).symm, fun h => ?_⟩
  obtain ⟨t, ht, hregs⟩ := hs.exists_runs_regs n
  obtain ⟨hcfg, hrom⟩ := runs_keeps_cfg_rom ht
  exact eq_of_regs_eq hcfg hrom (hregs.trans h) ▸ ht

/-! ### One edge, by the operation in the latch -/

section Edge

variable {c : Cfg} {x y : Nat} {w : Byte}

/-- `COUNT` below column 255 moves one column on (R92). -/
theorem next_of_count (hw : decodeWord c.layout w = .count) (hx : x < 255) :
    Regs.next c ⟨x, y, w⟩ = ⟨x + 1, y, tableByte c x y⟩ := by
  simp only [Regs.next, hw, nextColumn, nextLine, Regs.mk.injEq, if_neg hx.ne, and_true]
  omega

/-- `COUNT` at column 255 wraps to the next line (R92, R97). -/
theorem next_of_count_wrap (hw : decodeWord c.layout w = .count) :
    Regs.next c ⟨255, y, w⟩ = ⟨0, (y + 1) % 256, tableByte c 255 y⟩ := by
  simp only [Regs.next, hw, nextColumn, nextLine, if_true]

/-- `HCLR` at a byte that asks for no further clear goes to the next line (R93, R97). -/
theorem next_of_hclr_release (hw : decodeWord c.layout w = .hclr) (hd : (signals c x y).hresetN = true) :
    Regs.next c ⟨x, y, w⟩ = ⟨0, (y + 1) % 256, tableByte c x y⟩ := by
  simp only [Regs.next, hw, nextColumn, nextLine, hd, if_true]

/-- `HCLR` at a byte that asks for the clear again stays on the line (R93, R97). -/
theorem next_of_hclr_hold (hw : decodeWord c.layout w = .hclr) (hd : (signals c x y).hresetN = false) :
    Regs.next c ⟨x, y, w⟩ = ⟨0, y, tableByte c x y⟩ := by
  simp [Regs.next, hw, nextColumn, nextLine, hd]

/-- `VCLR` counts the column and clears the line (R94). -/
theorem next_of_vclr (hw : decodeWord c.layout w = .vclr) :
    Regs.next c ⟨x, y, w⟩ = ⟨(x + 1) % 256, 0, tableByte c x y⟩ := by
  simp only [Regs.next, hw, nextColumn, nextLine]

/-- `HVCLR` goes to the origin (R95). -/
theorem next_of_hvclr (hw : decodeWord c.layout w = .hvclr) :
    Regs.next c ⟨x, y, w⟩ = ⟨0, 0, tableByte c x y⟩ := by
  simp only [Regs.next, hw, nextColumn, nextLine]

/-- Counting along a line: as long as the bytes passed select `COUNT`, the column goes on and the latch is one behind. -/
theorem iterate_next_of_count (hw : decodeWord c.layout w = .count) (n : Nat) (hx : x + n < 255)
    (hbytes : ∀ i, x ≤ i → i < x + n → decodeWord c.layout (tableByte c i y) = .count) :
    (Regs.next c)^[n + 1] ⟨x, y, w⟩ = ⟨x + n + 1, y, tableByte c (x + n) y⟩ := by
  induction n with
  | zero => exact next_of_count hw hx
  | succ n ih =>
    have hprev := ih (by omega) fun i hlo hhi => hbytes i hlo (by omega)
    rw [Function.iterate_succ_apply', hprev]
    exact next_of_count (hbytes (x + n) (by omega) (by omega)) (by omega)

/-- Counting to the end of a line: column 255 wraps to the next line. -/
theorem iterate_next_to_wrap (hw : decodeWord c.layout w = .count) (hx : x < 256)
    (hbytes : ∀ i, x ≤ i → i < 255 → decodeWord c.layout (tableByte c i y) = .count) :
    (Regs.next c)^[256 - x] ⟨x, y, w⟩ = ⟨0, (y + 1) % 256, tableByte c 255 y⟩ := by
  rcases Nat.lt_or_ge x 255 with hlt | hge
  · have hrun := iterate_next_of_count hw (254 - x) (by omega) fun i hlo hhi => hbytes i hlo (by omega)
    rw [show x + (254 - x) = 254 by omega] at hrun
    rw [show 256 - x = 254 - x + 1 + 1 by omega, Function.iterate_succ_apply', hrun]
    exact next_of_count_wrap (hbytes 254 (by omega) (by omega))
  · obtain rfl : x = 255 := by omega
    exact next_of_count_wrap hw

end Edge

/-! ### The operation that a byte of the table selects (R54, R62) -/

section TableOps

variable {c : Cfg} (hc : c.valid = true) {x y : Nat}
include hc

/-- A byte with `HRESET_N = 1` selects `COUNT`: a vertical clear never comes alone (R68). -/
theorem decodeWord_tableByte_of_hresetN (h : (signals c x y).hresetN = true) :
    decodeWord c.layout (tableByte c x y) = .count := by
  have hv : (signals c x y).vresetN = true := by
    refine Bool.eq_true_of_not_eq_false fun hv => ?_
    rw [(filler_of_vresetN_eq_false hv).2] at h
    cases h
  rw [decodeWord_tableByte hc, h, hv]
  rfl

/-- In a main row a byte outside the policy's reset columns selects `COUNT` (R68, R72). -/
theorem decodeWord_main_count (hy : y < c.vbiEnd) (hx : hresetColumn c x = false) :
    decodeWord c.layout (tableByte c x y) = .count := by
  refine decodeWord_tableByte_of_hresetN hc ?_
  rw [signals_of_main hy, mainSignals, hx, Bool.not_false]

/-- In a main row a byte in the policy's reset columns selects `HCLR` (R68, R72). -/
theorem decodeWord_main_hclr (hy : y < c.vbiEnd) (hx : hresetColumn c x = true) :
    decodeWord c.layout (tableByte c x y) = .hclr := by
  rw [decodeWord_tableByte hc, signals_of_main hy, mainSignals, hx]
  rfl

/-- In a filler row a byte outside the pulse of a pulse policy selects `COUNT` (R76, R77). -/
theorem decodeWord_filler_count (hy : c.vbiEnd ≤ y) (hp : c.fillerPolicy ≠ .sustained)
    (hx : fillerPulse c x y = false) : decodeWord c.layout (tableByte c x y) = .count := by
  refine decodeWord_tableByte_of_hresetN hc ?_
  have hbit := fillerSignals_get_reset hp x y (Or.inl rfl)
  rw [signals_of_filler hy, show (fillerSignals c x y).hresetN = !fillerPulse c x y from hbit, hx, Bool.not_false]

/-- In a filler row a byte of the pulse, or any under `SUSTAINED`, selects `HVCLR` (R76 to R78). -/
theorem decodeWord_filler_hvclr (hy : c.vbiEnd ≤ y)
    (hx : c.fillerPolicy = .sustained ∨ fillerPulse c x y = true) :
    decodeWord c.layout (tableByte c x y) = .hvclr := by
  obtain ⟨hh, hv⟩ := (clears_both_iff c x y).2 ⟨hy, hx⟩
  rw [decodeWord_tableByte hc, hh, hv]
  rfl

/-- Under `SUSTAINED` the byte 0, which the filler rows hold, selects `HVCLR` (R78). -/
theorem decodeWord_zero_of_sustained (hp : c.fillerPolicy = .sustained) : decodeWord c.layout 0#8 = .hvclr := by
  have hop := decodeWord_filler_hvclr hc (x := 0) le_rfl (Or.inl hp)
  rwa [tableByte_of_sustained hp 0 le_rfl] at hop

end TableOps

/-- The horizontal reset bit of a main row, by the policy's columns (R72). -/
theorem hresetN_main {c : Cfg} {y : Nat} (hy : y < c.vbiEnd) (x : Nat) :
    (signals c x y).hresetN = !hresetColumn c x := by
  rw [signals_of_main hy, mainSignals]

end Sys2Proof.Machine

/-! PROOFS. Lines (70_reset_and_hazards.md section 2, 60_exceptions.md section 2): what the control lines carry after an
edge, how a main row runs, and how addresses count where no column is reset. -/

namespace Sys2Proof.Machine

/-! ### The control lines (R99, R104 to R106) -/

/-- No line carries an absent signal (R48, R99). -/
theorem line_of_absent {t : State} {sig : Signal} (h : t.cfg.layout.present sig = false) : line t sig = none := by
  rw [Layout.present, Option.isSome_eq_false_iff, Option.isNone_iff_eq_none] at h
  rw [line, h]

/-- After an edge a present signal's line carries the table's value at the address before it (R89, R99). -/
theorem line_of_step {s t : State} (h : step s = .next t) {sig : Signal} (hp : s.cfg.layout.present sig = true) :
    line t sig = some ((signals s.cfg s.h.toNat s.v.toNat).get sig) := by
  obtain ⟨⟨hc, -⟩, -⟩ := step_next_inv h
  obtain ⟨hcfg, -⟩ := step_keeps_cfg_rom h
  obtain ⟨i, hi⟩ := Option.isSome_iff_exists.1 hp
  have hbit := (tableGives_of_get hc (x := s.h.toNat) (y := s.v.toNat) (sig := sig) rfl).2 i hi
  rw [line, hcfg, hi, portQ, step_latch_eq_tableByte h, hcfg]
  exact congrArg some hbit

/-- The value on a present signal's line after `n + 1` edges is the table's at the address after `n`. -/
theorem Sound.exists_runs_line {s : State} (hs : Sound s) {n x y : Nat} {w : Byte} {sig : Signal}
    (hp : s.cfg.layout.present sig = true) (hn : (Regs.next s.cfg)^[n] s.regs = ⟨x, y, w⟩) :
    ∃ t, Runs (n + 1) s t ∧ line t sig = some ((signals s.cfg x y).get sig) := by
  obtain ⟨u, hu, rfl, rfl, -⟩ := hs.exists_runs_at hn
  obtain ⟨hcfg, hrom⟩ := runs_keeps_cfg_rom hu
  have hsu : Sound u := by rwa [Sound, hcfg, hrom]
  obtain ⟨t, ht⟩ := hsu.exists_step
  refine ⟨t, runs_add hu ((runs_succ 0 u t).2 ⟨t, ht, (runs_zero t t).2 rfl⟩), ?_⟩
  rw [line_of_step ht (by rwa [hcfg]), hcfg]

/-- Settles O38: each line carries its signal's value, and the strobes' values are those of the table. -/
theorem linesCarryTheAddressedSignals : Obligations.LinesCarryTheAddressedSignals := by
  intro s hs
  obtain ⟨t, ht⟩ := hs.exists_step
  refine ⟨t, ht, fun sig hp => line_of_absent ?_, fun sig hp => line_of_step ht hp, fun hp => ?_, fun hp => ?_,
    fun hp => ?_⟩
  · rwa [(step_keeps_cfg_rom ht).1]
  · rw [line_of_step ht hp, (tableGives_blankStart hs.1 _ _).1]
    simp
  · rw [line_of_step ht hp, (tableGives_blankEnd hs.1 _ _).1]
    simp
  · rw [line_of_step ht hp, (tableGives_vblankPulse hs.1 _ _).1]
    simp

/-! ### Along a main row (R119, R125) -/

/-- Both policies reset at column `HBI_END` (R72). -/
theorem hresetColumn_hbiEnd (c : Cfg) : hresetColumn c c.hbiEnd = true := by
  by_cases he : c.hresetPolicy = .exact
  · rw [hresetColumn_of_exact he, decide_eq_true rfl]
  · rw [hresetColumn_of_ne_exact he, decide_eq_true le_rfl]

/-- Under `EXACT` a row presents the column after the reset column before its last edge (R119). -/
theorem rowEndColumn_of_exact {c : Cfg} (he : c.hresetPolicy = .exact) : rowEndColumn c = c.hbiEnd + 1 :=
  if_neg (by rw [he]; decide)

/-- Under `TAIL` it presents column 0 again (R125). -/
theorem rowEndColumn_of_tail {c : Cfg} (ht : c.hresetPolicy = .tail) : rowEndColumn c = 0 :=
  if_pos ht

/-- The length of a main row under `EXACT` (R119). -/
theorem lineLength_of_exact {c : Cfg} (he : c.hresetPolicy = .exact) : lineLength c = c.hbiEnd + 2 :=
  if_neg (by rw [he]; decide)

/-- The length of a main row under `TAIL` (R119). -/
theorem lineLength_of_tail {c : Cfg} (ht : c.hresetPolicy = .tail) : lineLength c = c.hbiEnd + 3 :=
  if_pos ht

section Row

variable {c : Cfg} (hc : c.valid = true) {y : Nat} (hy : y < c.vbiEnd) {w : Byte}
  (hw : decodeWord c.layout w = .count)
include hc hy hw

/-- From a column of a main row, columns up to `HBI_END + 1` follow one another, the latch one behind (R119). -/
theorem iterate_next_row {x n : Nat} (hx : x + n ≤ c.hbiEnd) (hx' : x + n < 255) :
    (Regs.next c)^[n + 1] ⟨x, y, w⟩ = ⟨x + n + 1, y, tableByte c (x + n) y⟩ :=
  iterate_next_of_count hw n hx' fun i _ hi => decodeWord_main_count hc hy (hresetColumn_of_lt (by omega))

/-- The columns of a main row from column 0, the latch one behind (R119). -/
theorem row_column {k : Nat} (hk : 1 ≤ k) (hk' : k ≤ c.hbiEnd + 1) (hk255 : k ≤ 255) :
    (Regs.next c)^[k] ⟨0, y, w⟩ = ⟨k, y, tableByte c (k - 1) y⟩ := by
  have hrun := iterate_next_row hc hy hw (x := 0) (n := k - 1) (by omega) (by omega)
  rwa [Nat.zero_add, Nat.sub_add_cancel hk] at hrun

/-- Under `EXACT` the byte after the reset column releases the clear: the row ends after `HBI_END + 2` edges (R119). -/
theorem row_end_of_exact (hH : c.hbiEnd ≤ 254) (he : c.hresetPolicy = .exact) :
    (Regs.next c)^[c.hbiEnd + 2] ⟨0, y, w⟩ = ⟨0, (y + 1) % 256, tableByte c (c.hbiEnd + 1) y⟩ := by
  rw [Function.iterate_succ_apply', row_column hc hy hw (by omega) le_rfl (by omega)]
  refine next_of_hclr_release (decodeWord_main_hclr hc hy (hresetColumn_hbiEnd c)) ?_
  rw [hresetN_main hy, hresetColumn_of_exact he, decide_eq_false (by omega), Bool.not_false]

/-- Under `TAIL` the byte after the reset column asks for the clear again: column 0 of the same row follows (R125). -/
theorem row_hold_of_tail (hH : c.hbiEnd ≤ 254) (ht : c.hresetPolicy = .tail) :
    (Regs.next c)^[c.hbiEnd + 2] ⟨0, y, w⟩ = ⟨0, y, tableByte c (c.hbiEnd + 1) y⟩ := by
  rw [Function.iterate_succ_apply', row_column hc hy hw (by omega) le_rfl (by omega)]
  refine next_of_hclr_hold (decodeWord_main_hclr hc hy (hresetColumn_hbiEnd c)) ?_
  rw [hresetN_main hy, hresetColumn_of_tail ht, decide_eq_true (by omega), Bool.not_true]

omit hw in
/-- Column 0 releases a clear: it lies before the reset column (R72). -/
theorem hresetN_main_zero : (signals c 0 y).hresetN = true := by
  rw [hresetN_main hy, hresetColumn_of_lt (Cfg.facts hc).hbiEnd_pos, Bool.not_false]

omit hw in
/-- Under `TAIL` the column after the reset column selects `HCLR` too (R72). -/
theorem decodeWord_tail_column (ht : c.hresetPolicy = .tail) :
    decodeWord c.layout (tableByte c (c.hbiEnd + 1) y) = .hclr := by
  refine decodeWord_main_hclr hc hy ?_
  rw [hresetColumn_of_tail ht, decide_eq_true (by omega)]

/-- Under `TAIL` the second column 0 releases the clear: the row ends after `HBI_END + 3` edges (R119, R125). -/
theorem row_end_of_tail (hH : c.hbiEnd ≤ 254) (ht : c.hresetPolicy = .tail) :
    (Regs.next c)^[c.hbiEnd + 3] ⟨0, y, w⟩ = ⟨0, (y + 1) % 256, tableByte c 0 y⟩ := by
  rw [Function.iterate_succ_apply', row_hold_of_tail hc hy hw hH ht]
  exact next_of_hclr_release (decodeWord_tail_column hc hy ht) (hresetN_main_zero hc hy)

/-- A main row ends after its length, under either policy (R119). -/
theorem row_end (hH : c.hbiEnd ≤ 254) :
    (Regs.next c)^[lineLength c] ⟨0, y, w⟩ = ⟨0, (y + 1) % 256, tableByte c (rowEndColumn c) y⟩ := by
  rcases (Cfg.facts hc).hpol with he | ht
  · rw [lineLength_of_exact he, rowEndColumn_of_exact he]
    exact row_end_of_exact hc hy hw hH he
  · rw [lineLength_of_tail ht, rowEndColumn_of_tail ht]
    exact row_end_of_tail hc hy hw hH ht

omit hw in
/-- The byte presented before a row's last edge selects `COUNT` (R119). -/
theorem decodeWord_rowEndColumn : decodeWord c.layout (tableByte c (rowEndColumn c) y) = .count := by
  refine decodeWord_main_count hc hy ?_
  rcases (Cfg.facts hc).hpol with he | ht
  · rw [rowEndColumn_of_exact he, hresetColumn_of_exact he, decide_eq_false (by omega)]
  · rw [rowEndColumn_of_tail ht, hresetColumn_of_lt (Cfg.facts hc).hbiEnd_pos]

/-- Inside a main row the registers are never at column 0 with a latch that selects `COUNT`. -/
theorem row_inside (hH : c.hbiEnd ≤ 254) {j : Nat} (hj : 0 < j) (hj' : j < lineLength c) :
    ¬ (((Regs.next c)^[j] ⟨0, y, w⟩).h = 0 ∧ decodeWord c.layout ((Regs.next c)^[j] ⟨0, y, w⟩).l = .count) := by
  rcases Nat.lt_or_ge (c.hbiEnd + 1) j with hlast | hcol
  · have ht : c.hresetPolicy = .tail := (Cfg.facts hc).hpol.resolve_left fun he => by
      rw [lineLength_of_exact he] at hj'
      omega
    rw [lineLength_of_tail ht] at hj'
    obtain rfl : j = c.hbiEnd + 2 := by omega
    rw [row_hold_of_tail hc hy hw hH ht]
    rintro ⟨-, hop⟩
    rw [decodeWord_tail_column hc hy ht] at hop
    cases hop
  · rw [row_column hc hy hw hj hcol (by omega)]
    exact fun ⟨hzero, _⟩ => hj.ne' hzero

end Row

/-! ### Lines of a machine (R105, R119, R121, R125) -/

/-- The registers of a state, where its column is known. -/
theorem regs_of_h {s : State} {x : Nat} (hx : s.h.toNat = x) : s.regs = ⟨x, s.v.toNat, s.l⟩ := by
  rw [State.regs, hx]

/-- Settles O46: the row's columns, and its end under `EXACT`. -/
theorem lineLengthUnderExact : Obligations.LineLengthUnderExact := by
  intro s hs hH he hzero hy hsel
  have hregs : s.regs = ⟨0, s.v.toNat, s.l⟩ := regs_of_h (by rw [hzero]; rfl)
  refine ⟨fun k hk hk' => hs.exists_runs_at ?_, hs.exists_runs_at ?_⟩
  · rw [hregs]
    exact row_column hs.1 hy hsel hk hk' (by omega)
  · rw [hregs]
    exact row_end_of_exact hs.1 hy hsel hH he

/-- Settles O47: the row's columns, column 0 presented again, and the row's end under `TAIL`. -/
theorem lineLengthUnderTail : Obligations.LineLengthUnderTail := by
  intro s hs hH ht hzero hy hsel
  have hregs : s.regs = ⟨0, s.v.toNat, s.l⟩ := regs_of_h (by rw [hzero]; rfl)
  refine ⟨fun k hk hk' => hs.exists_runs_at ?_, hs.exists_runs_at ?_, hs.exists_runs_at ?_⟩
  · rw [hregs]
    exact row_column hs.1 hy hsel hk hk' (by omega)
  · rw [hregs]
    exact row_hold_of_tail hs.1 hy hsel hH ht
  · rw [hregs]
    exact row_end_of_tail hs.1 hy hsel hH ht

/-- Settles O39: the machine counts from the `BLANK_END` column to the reset column, and after each edge the lines carry
the signals of the column before it. -/
theorem blankEndLeadsTheReset : Obligations.BlankEndLeadsTheReset := by
  intro s hs hH hp hsel hx hlines
  have hF := Cfg.facts hs.1
  have hy : s.v.toNat < s.cfg.vbiEnd := by
    have hstart := hF.vbiStart_lt_vbiEnd
    omega
  have hreach (j : Nat) (hj : j ≤ s.cfg.irqRecovery) :
      ∃ w, (Regs.next s.cfg)^[j] s.regs = ⟨s.h.toNat + j, s.v.toNat, w⟩ := by
    cases j with
    | zero => exact ⟨s.l, rfl⟩
    | succ n => exact ⟨_, iterate_next_row hs.1 hy hsel (by omega) (by omega)⟩
  have hpres : s.cfg.layout.present .hresetN = true := Option.isSome_iff_exists.2 hF.hres
  refine ⟨?_, fun k hk hk' => ?_, ?_⟩
  · obtain ⟨t, ht, hline⟩ := hs.exists_runs_line (n := 0) hp rfl
    refine ⟨t, ht, hline.trans ?_⟩
    rw [(tableGives_blankEnd hs.1 _ _).1]
    simpa [hx] using hlines
  · obtain ⟨w, hw⟩ := hreach (k - 1) (by omega)
    obtain ⟨t, ht, hline⟩ := hs.exists_runs_line hpres hw
    rw [Nat.sub_add_cancel hk] at ht
    refine ⟨t, ht, hline.trans (congrArg some ?_)⟩
    exact (hresetN_main hy _).trans (by rw [hresetColumn_of_lt (by omega), Bool.not_false])
  · obtain ⟨w, hw⟩ := hreach s.cfg.irqRecovery le_rfl
    obtain ⟨t, ht, hline⟩ := hs.exists_runs_line hpres hw
    refine ⟨t, ht, hline.trans (congrArg some ?_)⟩
    exact (hresetN_main hy _).trans (by rw [hx, hresetColumn_hbiEnd, Bool.not_true])

/-- Settles O56: column 255 asks for the clear and wraps at once, so `V` counts by the wrap and then by the release in
column 0 of the next line. -/
theorem resetColumn255CountsTwice : Obligations.ResetColumn255CountsTwice := by
  intro s hs hH hzero hy hsel
  have hregs : s.regs = ⟨0, s.v.toNat, s.l⟩ := regs_of_h (by rw [hzero]; rfl)
  have hend := (Cfg.facts hs.1).vend
  have hy' : s.v.toNat < s.cfg.vbiEnd := by omega
  have h255 : (Regs.next s.cfg)^[255] s.regs = ⟨255, s.v.toNat, tableByte s.cfg 254 s.v.toNat⟩ := by
    rw [hregs]
    exact row_column hs.1 hy' hsel (by omega) (by omega) le_rfl
  have h256 : (Regs.next s.cfg)^[256] s.regs = ⟨0, s.v.toNat + 1, tableByte s.cfg 255 s.v.toNat⟩ := by
    rw [Function.iterate_succ_apply', h255,
      next_of_count_wrap (decodeWord_main_count hs.1 hy' (hresetColumn_of_lt (by omega))),
      Nat.mod_eq_of_lt (by omega)]
  refine ⟨hs.exists_runs_at h255, hs.exists_runs_at h256, hs.exists_runs_at ?_⟩
  have hreset : hresetColumn s.cfg 255 = true := hH ▸ hresetColumn_hbiEnd s.cfg
  rw [Function.iterate_succ_apply', h256,
    next_of_hclr_release (decodeWord_main_hclr hs.1 hy' hreset) (hresetN_main_zero hs.1 hy)]

end Sys2Proof.Machine

/-! PROOFS. Frames (70_reset_and_hazards.md section 2, rules R119 to R122): main rows one after the other, what follows
them under each filler policy, and after how many edges the registers come back. -/

namespace Sys2Proof.Machine

/-! ### Coming back after `n` edges and not before -/

/-- The registers come back after `n` edges and not before. -/
def ReturnsFirstAfter (c : Cfg) (n : Nat) (r : Regs) : Prop :=
  (Regs.next c)^[n] r = r ∧ ∀ k, 0 < k → k < n → (Regs.next c)^[k] r ≠ r

/-- A machine comes back when its registers do. -/
theorem Sound.returns_of_regs {s : State} (hs : Sound s) {n : Nat} (h : ReturnsFirstAfter s.cfg n s.regs) :
    Runs n s s ∧ ∀ k, 0 < k → k < n → ¬ Runs k s s := by
  obtain ⟨hback, hfirst⟩ := h
  exact ⟨(hs.runs_self_iff n).2 hback, fun k hk hkn hrun => hfirst k hk hkn ((hs.runs_self_iff k).1 hrun)⟩

/-- A cycle in two parts: one that leads elsewhere without coming back on the way, and one that leads back from there. -/
theorem returnsFirstAfter_of_parts {c : Cfg} {m n : Nat} {r u : Regs} (hm : (Regs.next c)^[m] r = u)
    (hmain : ∀ k, 0 < k → k < m → (Regs.next c)^[k] r ≠ r) (hn : (Regs.next c)^[n] u = r)
    (hrest : ∀ k < n, (Regs.next c)^[k] u ≠ r) : ReturnsFirstAfter c (m + n) r := by
  refine ⟨by rw [Nat.add_comm, Function.iterate_add_apply, hm, hn], fun k hk hkn => ?_⟩
  rcases Nat.lt_or_ge k m with hlt | hge
  · exact hmain k hk hlt
  · obtain ⟨j, rfl⟩ := Nat.exists_eq_add_of_le hge
    rw [Nat.add_comm, Function.iterate_add_apply, hm]
    exact hrest j (by omega)

/-! ### The main rows of a frame -/

section MainRows

variable {c : Cfg} (hc : c.valid = true) (hH : c.hbiEnd ≤ 254) {w : Byte} (hw : decodeWord c.layout w = .count)
include hc hH hw

/-- From column 0 of row 0 the main rows follow one another (R119). -/
theorem iterate_next_rows {y : Nat} (hy : y < c.vbiEnd) :
    (Regs.next c)^[(y + 1) * lineLength c] ⟨0, 0, w⟩ = ⟨0, (y + 1) % 256, tableByte c (rowEndColumn c) y⟩ := by
  have hend := (Cfg.facts hc).vend
  induction y with
  | zero =>
    rw [Nat.zero_add, Nat.one_mul]
    exact row_end hc hy hw hH
  | succ y ih =>
    have hy' : y < c.vbiEnd := by omega
    rw [Nat.succ_mul, Nat.add_comm, Function.iterate_add_apply, ih hy', Nat.mod_eq_of_lt (by omega)]
    exact row_end hc hy (decodeWord_rowEndColumn hc hy') hH

/-- The start of each main row, and of the row after the last one, has a latch that selects `COUNT` (R119). -/
theorem iterate_next_row_start {y : Nat} (hy : y ≤ c.vbiEnd) (hy' : y ≤ 255) :
    ∃ w', (Regs.next c)^[y * lineLength c] ⟨0, 0, w⟩ = ⟨0, y, w'⟩ ∧ decodeWord c.layout w' = .count := by
  cases y with
  | zero => exact ⟨w, by rw [Nat.zero_mul, Function.iterate_zero_apply], hw⟩
  | succ y =>
    have hrun := iterate_next_rows hc hH hw (y := y) (by omega)
    rw [Nat.mod_eq_of_lt (by omega)] at hrun
    exact ⟨_, hrun, decodeWord_rowEndColumn hc (by omega)⟩

/-- The main rows do not lead back to their start: inside a row the column or the latch differs, at a later row the
line. -/
theorem main_rows_not_back {k : Nat} (hk : 0 < k) (hk' : k < c.vbiEnd * lineLength c) :
    (Regs.next c)^[k] ⟨0, 0, w⟩ ≠ ⟨0, 0, w⟩ := by
  have hend := (Cfg.facts hc).vend
  have hrow : k / lineLength c < c.vbiEnd := Nat.div_lt_of_lt_mul (by rwa [Nat.mul_comm])
  have hlen : 0 < lineLength c := Nat.pos_of_ne_zero fun h => by rw [h, Nat.mul_zero] at hk'; omega
  obtain ⟨w', hstart, hw'⟩ := iterate_next_row_start hc hH hw hrow.le (by omega)
  have hsplit : k = k % lineLength c + k / lineLength c * lineLength c := by
    rw [Nat.mul_comm]
    exact (Nat.mod_add_div k _).symm
  rw [hsplit, Function.iterate_add_apply, hstart]
  rcases Nat.eq_zero_or_pos (k % lineLength c) with hzero | hpos
  · rw [hzero, Function.iterate_zero_apply, Ne, Regs.mk.injEq]
    rintro ⟨-, hfirst, -⟩
    rw [hzero, hfirst] at hsplit
    omega
  · intro hback
    refine row_inside hc hrow hw' hH hpos (Nat.mod_lt _ hlen) ?_
    rw [hback]
    exact ⟨rfl, hw⟩

end MainRows

/-- The frame anchor's latch selects `COUNT` (R116). -/
theorem decodeWord_anchorLatch {c : Cfg} (hc : c.valid = true) : decodeWord c.layout (anchorLatch c) = .count := by
  have hF := Cfg.facts hc
  by_cases hp : c.fillerPolicy = .sustained
  · rw [anchorLatch, if_pos hp]
    exact decodeWord_main_count hc hF.vbiEnd_pos (hresetColumn_of_lt hF.hbiEnd_pos)
  · rw [anchorLatch, if_neg hp]
    exact decodeWord_filler_count hc le_rfl hp (by simp [fillerPulse])

/-- Settles O59: the last main row wraps to line 0, with the byte that its end presents. -/
theorem noFillerRowsFrameIs256Lines : Obligations.NoFillerRowsFrameIs256Lines := by
  intro s hs hH hV hat
  have hw : decodeWord s.cfg.layout (tableByte s.cfg (rowEndColumn s.cfg) 255) = .count :=
    decodeWord_rowEndColumn hs.1 (by omega)
  have hback := iterate_next_rows hs.1 hH hw (y := 255) (by omega)
  refine hs.returns_of_regs ⟨?_, fun k hk hk' => ?_⟩
  · rw [(at_iff_regs_eq _ _ _ _).1 hat]
    exact hback
  · rw [(at_iff_regs_eq _ _ _ _).1 hat]
    exact main_rows_not_back hs.1 hH hw hk (by rwa [hV])

/-! ### The end of the frame in the first filler row (R75 to R78, R120) -/

section FillerRow

variable {c : Cfg} (hc : c.valid = true) {w : Byte} (hw : decodeWord c.layout w = .count)
include hc hw

/-- Under a pulse policy a filler row counts up to its reset column, the latch one behind (R76, R77). -/
theorem filler_column (hH : c.hbiEnd ≤ 254) (hp : c.fillerPolicy ≠ .sustained) {x y n : Nat} (hy : c.vbiEnd ≤ y)
    (hx : x + n ≤ c.hbiEnd) :
    (Regs.next c)^[n + 1] ⟨x, y, w⟩ = ⟨x + n + 1, y, tableByte c (x + n) y⟩ := by
  refine iterate_next_of_count hw n (by omega) fun i _ hi => decodeWord_filler_count hc hy hp ?_
  rw [fillerPulse, decide_eq_false (by omega), Bool.false_and]

/-- Under a pulse policy the pulse of the first filler row, in its reset column, ends the frame (R120). -/
theorem filler_row_end (hH : c.hbiEnd ≤ 254) (hp : c.fillerPolicy ≠ .sustained) :
    (Regs.next c)^[c.hbiEnd + 2] ⟨0, c.vbiEnd, w⟩ = ⟨0, 0, tableByte c (c.hbiEnd + 1) c.vbiEnd⟩ := by
  have hrun := filler_column hc hw hH hp (x := 0) (n := c.hbiEnd) le_rfl (by omega)
  rw [Nat.zero_add] at hrun
  rw [Function.iterate_succ_apply', hrun]
  exact next_of_hvclr (decodeWord_filler_hvclr hc le_rfl (Or.inr (by simp [fillerPulse])))

/-- Until then the registers stay on the first filler row. -/
theorem filler_row_inside (hH : c.hbiEnd ≤ 254) (hp : c.fillerPolicy ≠ .sustained) {j : Nat} (hj : j < c.hbiEnd + 2) :
    ((Regs.next c)^[j] ⟨0, c.vbiEnd, w⟩).v = c.vbiEnd := by
  cases j with
  | zero => rfl
  | succ n => rw [filler_column hc hw hH hp le_rfl (by omega)]

/-- Under `SUSTAINED` the first filler row presents two addresses, whose byte 0 goes to the origin twice (R120). -/
theorem sustained_end (hp : c.fillerPolicy = .sustained) :
    Regs.next c ⟨0, c.vbiEnd, w⟩ = ⟨1, c.vbiEnd, 0#8⟩ ∧ Regs.next c ⟨1, c.vbiEnd, 0#8⟩ = ⟨0, 0, 0#8⟩ ∧
      Regs.next c ⟨0, 0, 0#8⟩ = ⟨0, 0, tableByte c 0 0⟩ := by
  have hzero := decodeWord_zero_of_sustained hc hp
  refine ⟨?_, ?_, next_of_hvclr hzero⟩
  · rw [next_of_count hw (by decide), tableByte_of_sustained hp 0 le_rfl]
  · rw [next_of_hvclr hzero, tableByte_of_sustained hp 1 le_rfl]

end FillerRow

/-- The frame's period under a pulse policy: its main rows, and the first filler row to its pulse (R120). -/
theorem frame_period_pulse {c : Cfg} (hc : c.valid = true) (hreg : Regular c) (hp : c.fillerPolicy ≠ .sustained) :
    ReturnsFirstAfter c (c.vbiEnd * lineLength c + (c.hbiEnd + 2)) ⟨0, 0, anchorLatch c⟩ := by
  obtain ⟨hH, hV⟩ := hreg
  have hfirst := (Cfg.facts hc).vbiEnd_pos
  have hw := decodeWord_anchorLatch hc
  obtain ⟨w', hstart, hw'⟩ := iterate_next_row_start hc hH hw le_rfl hV
  refine returnsFirstAfter_of_parts hstart (fun k => main_rows_not_back hc hH hw) ?_ fun k hk hback => ?_
  · rw [filler_row_end hc hw' hH hp, anchorLatch, if_neg hp]
  · have hline := filler_row_inside hc hw' hH hp hk
    rw [hback] at hline
    exact absurd hline hfirst.ne

/-- The frame's period under `SUSTAINED`: its main rows, and three edges through the first filler row (R120). -/
theorem frame_period_sustained {c : Cfg} (hc : c.valid = true) (hreg : Regular c) (hp : c.fillerPolicy = .sustained) :
    ReturnsFirstAfter c (c.vbiEnd * lineLength c + 3) ⟨0, 0, anchorLatch c⟩ := by
  obtain ⟨hH, hV⟩ := hreg
  have hfirst := (Cfg.facts hc).vbiEnd_pos
  have hw := decodeWord_anchorLatch hc
  obtain ⟨w', hstart, hw'⟩ := iterate_next_row_start hc hH hw le_rfl hV
  obtain ⟨h1, h2, h3⟩ := sustained_end hc hw' hp
  refine returnsFirstAfter_of_parts hstart (fun k => main_rows_not_back hc hH hw) ?_ fun k hk hback => ?_
  · rw [Function.iterate_succ_apply, h1, Function.iterate_succ_apply, h2, Function.iterate_one, h3, anchorLatch,
      if_pos hp]
  · match k, hk with
    | 0, _ => exact absurd (congrArg Regs.v hback) hfirst.ne'
    | 1, _ =>
      rw [Function.iterate_one, h1] at hback
      cases hback
    | 2, _ =>
      rw [Function.iterate_succ_apply, h1, Function.iterate_one, h2, Regs.mk.injEq] at hback
      obtain ⟨-, -, hlatch⟩ := hback
      have hop := decodeWord_zero_of_sustained hc hp
      rw [hlatch, hw] at hop
      cases hop

/-- Settles O48: the pulse period with the line length of `EXACT`. -/
theorem framePeriodExactPulse : Obligations.FramePeriodExactPulse := by
  intro s hs hreg he hp hat
  have hperiod := frame_period_pulse hs.1 hreg hp
  rw [lineLength_of_exact he, ← Nat.succ_mul, ← (at_iff_regs_eq _ _ _ _).1 hat] at hperiod
  exact hs.returns_of_regs hperiod

/-- Settles O49: the pulse period with the line length of `TAIL`. -/
theorem framePeriodTailPulse : Obligations.FramePeriodTailPulse := by
  intro s hs hreg ht hp hat
  have hperiod := frame_period_pulse hs.1 hreg hp
  rw [lineLength_of_tail ht, ← (at_iff_regs_eq _ _ _ _).1 hat] at hperiod
  exact hs.returns_of_regs hperiod

/-- Settles O50: the `SUSTAINED` period with the line length of `EXACT`. -/
theorem framePeriodExactSustained : Obligations.FramePeriodExactSustained := by
  intro s hs hreg he hp hat
  have hperiod := frame_period_sustained hs.1 hreg hp
  rw [lineLength_of_exact he, ← (at_iff_regs_eq _ _ _ _).1 hat] at hperiod
  exact hs.returns_of_regs hperiod

/-- Settles O51: the `SUSTAINED` period with the line length of `TAIL`. -/
theorem framePeriodTailSustained : Obligations.FramePeriodTailSustained := by
  intro s hs hreg ht hp hat
  have hperiod := frame_period_sustained hs.1 hreg hp
  rw [lineLength_of_tail ht, ← (at_iff_regs_eq _ _ _ _).1 hat] at hperiod
  exact hs.returns_of_regs hperiod

end Sys2Proof.Machine

/-! PROOFS. Addresses in order (70_reset_and_hazards.md section 2, rules R121 and R122): where the bytes passed select
`COUNT`, the address `V·256 + H` counts through the ROM. -/

namespace Sys2Proof.Machine

/-- The registers at an address of the ROM (R31). -/
def Regs.ofAddr (a : Nat) (w : Byte) : Regs := ⟨a % 256, a / 256, w⟩

/-- The registers of a state, by its address (R31). -/
theorem regs_eq_ofAddr (s : State) : s.regs = Regs.ofAddr (romAddr s).toNat s.l := by
  have hh : s.h.toNat < 256 := s.h.isLt
  rw [Regs.ofAddr, romAddr_toNat, State.regs, Regs.mk.injEq]
  exact ⟨by omega, by omega, rfl⟩

/-- A state whose registers are at an address has it on its address lines (R31). -/
theorem romAddr_of_regs {s : State} {a : Nat} {w : Byte} (h : s.regs = Regs.ofAddr a w) :
    (romAddr s).toNat = a := by
  obtain ⟨hh, hv, -⟩ := (at_iff_regs_eq s _ _ _).2 h
  rw [romAddr_toNat, hh, hv]
  omega

section Addresses

variable {c : Cfg} {a : Nat} {w : Byte} (hw : decodeWord c.layout w = .count)
include hw

/-- `COUNT` moves one address on, from the last to the first (R92, R97). -/
theorem next_ofAddr (ha : a < 65536) :
    Regs.next c (Regs.ofAddr a w) = Regs.ofAddr ((a + 1) % 65536) (imageByte c a) := by
  rcases Nat.lt_or_ge (a % 256) 255 with hlt | hge
  · rw [Regs.ofAddr, next_of_count hw hlt, Regs.ofAddr, imageByte, Regs.mk.injEq]
    exact ⟨by omega, by omega, rfl⟩
  · have hcol : a % 256 = 255 := by omega
    rw [Regs.ofAddr, imageByte, hcol, next_of_count_wrap hw, Regs.ofAddr, Regs.mk.injEq]
    exact ⟨by omega, by omega, rfl⟩

/-- The address counts as long as the bytes passed select `COUNT`, and the latch is one behind. -/
theorem iterate_next_ofAddr (ha : a < 65536) (n : Nat)
    (hbytes : ∀ i < n, decodeWord c.layout (imageByte c ((a + i) % 65536)) = .count) :
    (Regs.next c)^[n + 1] (Regs.ofAddr a w) =
      Regs.ofAddr ((a + n + 1) % 65536) (imageByte c ((a + n) % 65536)) := by
  induction n with
  | zero =>
    simp [next_ofAddr hw ha, Nat.mod_eq_of_lt ha]
  | succ n ih =>
    have hmod (b : Nat) : b % 65536 < 65536 := Nat.mod_lt _ (by decide)
    rw [Function.iterate_succ_apply', ih fun i hi => hbytes i (by omega)]
    refine (next_ofAddr (hbytes n (by omega)) (hmod _)).trans ?_
    rw [Nat.mod_add_mod]
    rfl

end Addresses

/-- With `HBI_END = 256` no byte of the main rows asks for a clear (R72, R121). -/
theorem decodeWord_imageByte_main {c : Cfg} (hc : c.valid = true) (hH : c.hbiEnd = 256) {a : Nat}
    (ha : a < c.vbiEnd * 256) : decodeWord c.layout (imageByte c a) = .count :=
  decodeWord_main_count hc (by omega) (hresetColumn_of_lt (by omega))

/-- With `HBI_END = 256`, and no filler rows or no `SUSTAINED` ones, no byte of the table asks for a clear (R121,
R122). -/
theorem decodeWord_imageByte_count {c : Cfg} (hc : c.valid = true) (hH : c.hbiEnd = 256)
    (hp : c.fillerPolicy ≠ .sustained ∨ c.vbiEnd = 256) {a : Nat} (ha : a < 65536) :
    decodeWord c.layout (imageByte c a) = .count := by
  rcases Nat.lt_or_ge a (c.vbiEnd * 256) with hmain | hfill
  · exact decodeWord_imageByte_main hc hH hmain
  · have hpulse : fillerPulse c (a % 256) (a / 256) = false := by
      rw [fillerPulse, decide_eq_false (by omega), Bool.false_and]
    exact decodeWord_filler_count hc (by omega) (hp.resolve_right (by omega)) hpulse

/-- Settles O57: every byte that can be passed selects `COUNT`. -/
theorem noResetColumnCountsEveryAddress : Obligations.NoResetColumnCountsEveryAddress := by
  intro s hs hH hp hsel n
  obtain ⟨t, ht, hregs⟩ := hs.exists_runs_regs n
  refine ⟨t, ht, ?_⟩
  cases n with
  | zero => rw [(runs_zero s t).1 ht, Nat.add_zero, Nat.mod_eq_of_lt (romAddr s).isLt]
  | succ n =>
    rw [regs_eq_ofAddr s, iterate_next_ofAddr hsel (romAddr s).isLt n fun i _ =>
      decodeWord_imageByte_count hs.1 hH hp (Nat.mod_lt _ (by decide))] at hregs
    exact romAddr_of_regs hregs

section SustainedFrame

variable {c : Cfg} (hc : c.valid = true) (hH : c.hbiEnd = 256) (hV : c.vbiEnd ≤ 255)
include hc hH

/-- The byte at the origin, which the latch holds there, asks for no clear (R72, R121). -/
theorem decodeWord_origin : decodeWord c.layout (tableByte c 0 0) = .count := by
  have hfirst := (Cfg.facts hc).vbiEnd_pos
  exact decodeWord_imageByte_main hc hH (a := 0) (by omega)

include hV

/-- From the origin the address counts through the main rows and one address further (R121). -/
theorem iterate_next_origin {n : Nat} (hn : n ≤ c.vbiEnd * 256) :
    (Regs.next c)^[n + 1] ⟨0, 0, tableByte c 0 0⟩ = Regs.ofAddr (n + 1) (imageByte c n) := by
  have hrun := iterate_next_ofAddr (decodeWord_origin hc hH) (a := 0) (by decide) n fun i hi =>
    decodeWord_imageByte_main hc hH (by omega)
  rwa [Nat.zero_add, Nat.mod_eq_of_lt (by omega), Nat.mod_eq_of_lt (by omega)] at hrun

/-- The second filler address presented makes the latch 0 and the counters 0 (R78, R95, R121). -/
theorem iterate_next_origin_clear (hp : c.fillerPolicy = .sustained) :
    (Regs.next c)^[c.vbiEnd * 256 + 2] ⟨0, 0, tableByte c 0 0⟩ = ⟨0, 0, 0#8⟩ := by
  have hclear : decodeWord c.layout (imageByte c (c.vbiEnd * 256)) = .hvclr :=
    decodeWord_filler_hvclr hc (by omega) (Or.inl hp)
  rw [Function.iterate_succ_apply', iterate_next_origin hc hH hV le_rfl, Regs.ofAddr, next_of_hvclr hclear,
    tableByte_of_sustained hp _ (by omega)]

/-- The frame's period with no reset column under `SUSTAINED` (R121). -/
theorem sustained_period_without_reset_column (hp : c.fillerPolicy = .sustained) :
    ReturnsFirstAfter c (c.vbiEnd * 256 + 2 + 1) ⟨0, 0, tableByte c 0 0⟩ := by
  have hzero := decodeWord_zero_of_sustained hc hp
  refine returnsFirstAfter_of_parts (iterate_next_origin_clear hc hH hV hp) (fun k hk hk' hback => ?_)
    (next_of_hvclr hzero) fun k hk hback => ?_
  · have hrun := iterate_next_origin hc hH hV (n := k - 1) (by omega)
    rw [Nat.sub_add_cancel hk, hback, Regs.ofAddr, Regs.mk.injEq] at hrun
    omega
  · obtain rfl : k = 0 := by omega
    obtain ⟨-, -, hlatch⟩ := (Regs.mk.injEq ..).mp hback
    have hop := decodeWord_origin hc hH
    rw [← hlatch, hzero] at hop
    cases hop

end SustainedFrame

/-- Settles O58: the address counts through the main rows, and two filler bytes lead back. -/
theorem noResetColumnUnderSustained : Obligations.NoResetColumnUnderSustained := by
  intro s hs hH hp hV hat
  have hregs := (at_iff_regs_eq _ _ _ _).1 hat
  refine ⟨fun n hn => ?_, hs.exists_runs_at ?_, hs.returns_of_regs ?_⟩
  · cases n with
    | zero => exact ⟨s, (runs_zero s s).2 rfl, romAddr_of_regs hregs⟩
    | succ n =>
      obtain ⟨t, ht, hrun⟩ := hs.exists_runs_regs (n + 1)
      rw [hregs, iterate_next_origin hs.1 hH hV (by omega)] at hrun
      exact ⟨t, ht, romAddr_of_regs hrun⟩
  · rw [hregs]
    exact iterate_next_origin_clear hs.1 hH hV hp
  · rw [hregs]
    exact sustained_period_without_reset_column hs.1 hH hV hp

end Sys2Proof.Machine

/-! PROOFS. The frame's cycle (70_reset_and_hazards.md, rules R115 to R118, R120, R123): which operation each of its
latches selects, that the step stays on it, its anchor, and the addresses it presents. -/

namespace Sys2Proof.Machine

/-- Registers of the frame's cycle: an address of normal operation, the latch the byte presented before (R118). -/
def FrameRegs (c : Cfg) (r : Regs) : Prop := frameAddress c r.h r.v = true ∧ r.l ∈ frameLatches c r.h r.v

/-- What it takes for written-out registers. -/
theorem frameRegs_mk_iff (c : Cfg) (x y : Nat) (w : Byte) :
    FrameRegs c ⟨x, y, w⟩ ↔ frameAddress c x y = true ∧ w ∈ frameLatches c x y := Iff.rfl

/-- A state is on the frame when it is a regular machine with such registers. -/
theorem onFrame_iff (s : State) : OnFrame s ↔ Sound s ∧ Regular s.cfg ∧ FrameRegs s.cfg s.regs := Iff.rfl

/-- The addresses of normal operation under `SUSTAINED` (R123). -/
theorem frameAddress_of_sustained {c : Cfg} (hp : c.fillerPolicy = .sustained) (x y : Nat) :
    frameAddress c x y = true ↔ x ≤ c.hbiEnd + 1 ∧ (y < c.vbiEnd ∨ y = c.vbiEnd ∧ x ≤ 1) := by
  simp [frameAddress, hp]

/-- The addresses of normal operation under a pulse policy (R123). -/
theorem frameAddress_of_pulse {c : Cfg} (hp : c.fillerPolicy ≠ .sustained) (x y : Nat) :
    frameAddress c x y = true ↔ x ≤ c.hbiEnd + 1 ∧ y ≤ c.vbiEnd := by
  simp [frameAddress, hp]

/-- The start of the line after a main row is an address of the frame. -/
theorem frameAddress_next_line {c : Cfg} {y : Nat} (hy : y < c.vbiEnd) : frameAddress c 0 (y + 1) = true := by
  by_cases hp : c.fillerPolicy = .sustained
  · rw [frameAddress_of_sustained hp]
    omega
  · rw [frameAddress_of_pulse hp]
    omega

/-- The start of a main row is an address of the frame. -/
theorem frameAddress_main_zero {c : Cfg} {y : Nat} (hy : y < c.vbiEnd) : frameAddress c 0 y = true := by
  by_cases hp : c.fillerPolicy = .sustained
  · rw [frameAddress_of_sustained hp]
    omega
  · rw [frameAddress_of_pulse hp]
    omega

/-- Away from column 0 the latch holds the byte of the column before (R118). -/
theorem mem_frameLatches_succ (c : Cfg) (x y : Nat) (w : Byte) :
    w ∈ frameLatches c (x + 1) y ↔ w = tableByte c x y := by
  simp [frameLatches]

/-- At column 0 below line 0 the latch holds the end of the line above, or under `TAIL` of the same line (R118, R125). -/
theorem mem_frameLatches_line (c : Cfg) (y : Nat) (w : Byte) :
    w ∈ frameLatches c 0 (y + 1) ↔ w = tableByte c (rowEndColumn c) y ∨
      ((c.hresetPolicy = .tail ∧ y + 1 < c.vbiEnd) ∧ w = tableByte c (c.hbiEnd + 1) (y + 1)) := by
  simp [frameLatches, List.mem_ite_nil_right]

/-- At the origin the latch holds the end of the frame; under `SUSTAINED` also the byte of the origin, and under `TAIL`
the tail of line 0 (R118, R120, R125). -/
theorem mem_frameLatches_origin (c : Cfg) (w : Byte) :
    w ∈ frameLatches c 0 0 ↔
      (c.fillerPolicy = .sustained ∧ (w = tableByte c 1 c.vbiEnd ∨ w = tableByte c 0 0)) ∨
      (c.fillerPolicy ≠ .sustained ∧ w = tableByte c (c.hbiEnd + 1) c.vbiEnd) ∨
      ((c.hresetPolicy = .tail ∧ 0 < c.vbiEnd) ∧ w = tableByte c (c.hbiEnd + 1) 0) := by
  by_cases hp : c.fillerPolicy = .sustained
  · simp [frameLatches, hp, List.mem_ite_nil_right, or_assoc]
  · simp [frameLatches, hp, List.mem_ite_nil_right]

/-- The edges of the frame's cycle: at which addresses which operation runs. -/
inductive FrameEdge (c : Cfg) : Nat → Nat → Instr → Prop where
  /-- A column up to `HBI_END` of a line up to `VBI_END` counts on; under `SUSTAINED` line `VBI_END` counts in column 0
  alone. -/
  | column {x y : Nat} (hx : x ≤ c.hbiEnd) (hy : y < c.vbiEnd ∨ y = c.vbiEnd ∧ (c.fillerPolicy = .sustained → x = 0)) :
      FrameEdge c x y .count
  /-- The column after the reset column of a main row. -/
  | rowEnd {y : Nat} (hy : y < c.vbiEnd) : FrameEdge c (c.hbiEnd + 1) y .hclr
  /-- Column 0 of a main row presented again (R125). -/
  | secondZero {y : Nat} (ht : c.hresetPolicy = .tail) (hy : y < c.vbiEnd) : FrameEdge c 0 y .hclr
  /-- The column after the pulse of the first filler row (R76, R77). -/
  | pulse (hp : c.fillerPolicy ≠ .sustained) : FrameEdge c (c.hbiEnd + 1) c.vbiEnd .hvclr
  /-- The second address of the first filler row under `SUSTAINED` (R78). -/
  | clear (hp : c.fillerPolicy = .sustained) : FrameEdge c 1 c.vbiEnd .hvclr
  /-- The origin with the clear still in the latch, under `SUSTAINED` (R120). -/
  | origin (hp : c.fillerPolicy = .sustained) : FrameEdge c 0 0 .hvclr

section Frame

variable {c : Cfg} (hc : c.valid = true)
include hc

/-- The operation of a latch away from column 0 (R118). -/
theorem frameEdge_of_column {x y : Nat} (ha : frameAddress c (x + 1) y = true) :
    FrameEdge c (x + 1) y (decodeWord c.layout (tableByte c x y)) := by
  by_cases hp : c.fillerPolicy = .sustained
  · obtain ⟨hx, hmain | ⟨rfl, hx1⟩⟩ := (frameAddress_of_sustained hp _ _).1 ha
    · rcases Nat.lt_or_ge x c.hbiEnd with hlt | hge
      · rw [decodeWord_main_count hc hmain (hresetColumn_of_lt hlt)]
        exact .column hlt (Or.inl hmain)
      · obtain rfl : x = c.hbiEnd := by omega
        rw [decodeWord_main_hclr hc hmain (hresetColumn_hbiEnd c)]
        exact .rowEnd hmain
    · obtain rfl : x = 0 := by omega
      rw [decodeWord_filler_hvclr hc le_rfl (Or.inl hp)]
      exact .clear hp
  · obtain ⟨hx, hy⟩ := (frameAddress_of_pulse hp _ _).1 ha
    rcases Nat.lt_or_ge x c.hbiEnd with hlt | hge
    · have hop : decodeWord c.layout (tableByte c x y) = .count := by
        rcases Nat.lt_or_ge y c.vbiEnd with hmain | hfill
        · exact decodeWord_main_count hc hmain (hresetColumn_of_lt hlt)
        · refine decodeWord_filler_count hc hfill hp ?_
          rw [fillerPulse, decide_eq_false hlt.ne, Bool.false_and]
      rw [hop]
      exact .column hlt (hy.lt_or_eq.imp_right fun h => ⟨h, fun h' => absurd h' hp⟩)
    · obtain rfl : x = c.hbiEnd := by omega
      rcases hy.lt_or_eq with hmain | rfl
      · rw [decodeWord_main_hclr hc hmain (hresetColumn_hbiEnd c)]
        exact .rowEnd hmain
      · rw [decodeWord_filler_hvclr hc le_rfl (Or.inr (by simp [fillerPulse]))]
        exact .pulse hp

/-- Every latch of the frame selects the operation of its edge (R118). -/
theorem FrameRegs.edge {r : Regs} (hr : FrameRegs c r) : FrameEdge c r.h r.v (decodeWord c.layout r.l) := by
  obtain ⟨x, y, w⟩ := r
  obtain ⟨ha, hw⟩ := hr
  have hline : y ≤ c.vbiEnd := by
    by_cases hp : c.fillerPolicy = .sustained
    · obtain ⟨-, hy | ⟨hy, -⟩⟩ := (frameAddress_of_sustained hp _ _).1 ha
      · exact hy.le
      · exact hy.le
    · exact ((frameAddress_of_pulse hp _ _).1 ha).2
  match x, y, hw with
  | x + 1, y, hw =>
    rw [(mem_frameLatches_succ c x y w).1 hw]
    exact frameEdge_of_column hc ha
  | 0, y + 1, hw =>
    obtain rfl | ⟨⟨ht, hy⟩, rfl⟩ := (mem_frameLatches_line c y w).1 hw
    · rw [decodeWord_rowEndColumn hc (show y < c.vbiEnd by omega)]
      exact .column (Nat.zero_le _) (hline.lt_or_eq.imp_right fun h => ⟨h, fun _ => rfl⟩)
    · rw [decodeWord_tail_column hc hy ht]
      exact .secondZero ht hy
  | 0, 0, hw =>
    have hfirst := (Cfg.facts hc).vbiEnd_pos
    have hcolumn : FrameEdge c 0 0 .count := .column (Nat.zero_le _) (Or.inl hfirst)
    obtain ⟨hp, rfl | rfl⟩ | ⟨hp, rfl⟩ | ⟨⟨ht, hy⟩, rfl⟩ := (mem_frameLatches_origin c w).1 hw
    · rw [decodeWord_filler_hvclr hc le_rfl (Or.inl hp)]
      exact .origin hp
    · rw [decodeWord_main_count hc hfirst (hresetColumn_of_lt (Cfg.facts hc).hbiEnd_pos)]
      exact hcolumn
    · rw [decodeWord_filler_count hc le_rfl hp (by simp [fillerPulse])]
      exact hcolumn
    · rw [decodeWord_tail_column hc hy ht]
      exact .secondZero ht hy

/-- An edge at an address of the frame, with a latch that selects the operation of its edge, leads onto the frame: the
next address is one of normal operation and the latch takes the byte of this one (R89, R118). -/
theorem FrameEdge.next (hreg : Regular c) {x y : Nat} {w : Byte} (h : FrameEdge c x y (decodeWord c.layout w)) :
    FrameRegs c (Regs.next c ⟨x, y, w⟩) := by
  obtain ⟨hH, hV⟩ := hreg
  have hfirst := (Cfg.facts hc).vbiEnd_pos
  generalize hop : decodeWord c.layout w = i at h
  cases h with
  | column hx hy =>
    rw [next_of_count hop (by omega), frameRegs_mk_iff]
    refine ⟨?_, (mem_frameLatches_succ c x y _).2 rfl⟩
    by_cases hp : c.fillerPolicy = .sustained
    · rw [frameAddress_of_sustained hp]
      exact ⟨by omega, hy.imp_right fun ⟨hlast, hzero⟩ => ⟨hlast, by rw [hzero hp]⟩⟩
    · rw [frameAddress_of_pulse hp]
      omega
  | rowEnd hy =>
    rcases (Cfg.facts hc).hpol with he | ht
    · rw [next_of_hclr_release hop (by
        rw [hresetN_main hy, hresetColumn_of_exact he, decide_eq_false (by omega), Bool.not_false]),
        Nat.mod_eq_of_lt (by omega)]
      exact ⟨frameAddress_next_line hy, (mem_frameLatches_line c y _).2 (Or.inl (by rw [rowEndColumn_of_exact he]))⟩
    · rw [next_of_hclr_hold hop (by
        rw [hresetN_main hy, hresetColumn_of_tail ht, decide_eq_true (by omega),
          Bool.not_true])]
      refine ⟨frameAddress_main_zero hy, ?_⟩
      cases y with
      | zero => exact (mem_frameLatches_origin c _).2 (Or.inr (Or.inr ⟨⟨ht, hy⟩, rfl⟩))
      | succ y => exact (mem_frameLatches_line c y _).2 (Or.inr ⟨⟨ht, hy⟩, rfl⟩)
  | secondZero ht hy =>
    rw [next_of_hclr_release hop (hresetN_main_zero hc hy), Nat.mod_eq_of_lt (by omega)]
    exact ⟨frameAddress_next_line hy, (mem_frameLatches_line c y _).2 (Or.inl (by rw [rowEndColumn_of_tail ht]))⟩
  | pulse hp =>
    rw [next_of_hvclr hop, frameRegs_mk_iff]
    exact ⟨frameAddress_main_zero hfirst, (mem_frameLatches_origin c _).2 (Or.inr (Or.inl ⟨hp, rfl⟩))⟩
  | clear hp =>
    rw [next_of_hvclr hop, frameRegs_mk_iff]
    exact ⟨frameAddress_main_zero hfirst, (mem_frameLatches_origin c _).2 (Or.inl ⟨hp, Or.inl rfl⟩)⟩
  | origin hp =>
    rw [next_of_hvclr hop, frameRegs_mk_iff]
    exact ⟨frameAddress_main_zero hfirst, (mem_frameLatches_origin c _).2 (Or.inl ⟨hp, Or.inr rfl⟩)⟩

end Frame

/-- Settles O43: on the frame the latch selects the operation of an edge, and that edge leads onto the frame. -/
theorem frameIsClosedUnderTheStep : Obligations.FrameIsClosedUnderTheStep := by
  intro s t hs hstep
  obtain ⟨hsound, hreg, hregs⟩ := (onFrame_iff s).1 hs
  rw [onFrame_iff, regs_of_step hstep, (step_keeps_cfg_rom hstep).1]
  exact ⟨hsound.of_step hstep, hreg, FrameEdge.next hsound.1 hreg (hregs.edge hsound.1)⟩

/-! ### The anchor (R116) -/

/-- Settles O44: the origin is an address of the frame, and the anchor's latch one of its latches. -/
theorem frameAnchorIsOnTheFrame : Obligations.FrameAnchorIsOnTheFrame := by
  intro c hc hreg
  refine ⟨sound_powerUp hc _ _ _, hreg, frameAddress_main_zero (Cfg.facts hc).vbiEnd_pos, (mem_frameLatches_origin c _).2 ?_⟩
  by_cases hp : c.fillerPolicy = .sustained
  · exact Or.inl ⟨hp, Or.inr (if_pos hp)⟩
  · exact Or.inr (Or.inl ⟨hp, if_neg hp⟩)

/-- A latch of the frame's origin that selects `COUNT` is the anchor's: the others select a clear (R116). -/
theorem eq_anchorLatch_of_count {c : Cfg} (hc : c.valid = true) {w : Byte} (hw : w ∈ frameLatches c 0 0)
    (hop : decodeWord c.layout w = .count) : w = anchorLatch c := by
  obtain ⟨hp, rfl | rfl⟩ | ⟨hp, rfl⟩ | ⟨⟨ht, hy⟩, rfl⟩ := (mem_frameLatches_origin c w).1 hw
  · rw [decodeWord_filler_hvclr hc le_rfl (Or.inl hp)] at hop
    cases hop
  · exact (if_pos hp).symm
  · exact (if_neg hp).symm
  · rw [decodeWord_tail_column hc hy ht] at hop
    cases hop

/-- Under a pulse policy a filler byte outside the pulse is the packed record with the two resets 1 (R76, R77). -/
theorem tableByte_of_no_pulse {c : Cfg} (hp : c.fillerPolicy ≠ .sustained) {x y : Nat} (hy : c.vbiEnd ≤ y)
    (hx : fillerPulse c x y = false) :
    tableByte c x y = pack c.layout { Signals.zero with hresetN := true, vresetN := true } := by
  rw [tableByte, signals_of_filler hy, fillerSignals, if_neg hp, hx, Bool.not_false]

/-- Settles O45: the anchor is on the frame and selects `COUNT`; no other latch of the origin does; under `REF` a filler
byte outside the pulse is `0x30`. -/
theorem frameAnchorIsTheOnlyOne : Obligations.FrameAnchorIsTheOnlyOne := by
  refine ⟨fun c hc hreg => ?_, fun s hs hh hv hop => ?_, fun c _ _ href hp => ?_⟩
  · have hop := decodeWord_anchorLatch hc
    exact ⟨frameAnchorIsOnTheFrame c hc hreg, hop, (decodeWord_eq_iff_bits _ _ _).1 hop⟩
  · obtain ⟨⟨hc, -⟩, -, -, hlatch⟩ := hs
    rw [hh, hv] at hlatch
    exact eq_anchorLatch_of_count hc hlatch hop
  · rw [anchorLatch, if_neg hp, tableByte_of_no_pulse hp le_rfl (by simp [fillerPulse]), href]
    decide

/-! ### The addresses presented (R123) -/

/-- From the anchor's registers every address of normal operation is reached: its line's start, then its columns
(R123). -/
theorem exists_iterate_frameAddress {c : Cfg} (hc : c.valid = true) (hreg : Regular c) {x y : Nat}
    (ha : frameAddress c x y = true) : ∃ k w, (Regs.next c)^[k] ⟨0, 0, anchorLatch c⟩ = ⟨x, y, w⟩ := by
  obtain ⟨hH, hV⟩ := hreg
  have hw := decodeWord_anchorLatch hc
  suffices hrow : ∀ w, decodeWord c.layout w = .count → ∃ k w', (Regs.next c)^[k] ⟨0, y, w⟩ = ⟨x, y, w'⟩ by
    have hline : y ≤ c.vbiEnd := by
      by_cases hp : c.fillerPolicy = .sustained
      · have := (frameAddress_of_sustained hp _ _).1 ha
        omega
      · exact ((frameAddress_of_pulse hp _ _).1 ha).2
    obtain ⟨w, hstart, hcount⟩ := iterate_next_row_start hc hH hw hline (by omega)
    obtain ⟨k, w', hk⟩ := hrow w hcount
    exact ⟨k + y * lineLength c, w', by rw [Function.iterate_add_apply, hstart, hk]⟩
  intro w hcount
  cases x with
  | zero => exact ⟨0, w, rfl⟩
  | succ x =>
    by_cases hp : c.fillerPolicy = .sustained
    · obtain ⟨hx, hmain | ⟨rfl, hx1⟩⟩ := (frameAddress_of_sustained hp _ _).1 ha
      · exact ⟨x + 1, _, row_column hc hmain hcount (by omega) hx (by omega)⟩
      · obtain rfl : x = 0 := by omega
        exact ⟨1, _, (sustained_end hc hcount hp).1⟩
    · obtain ⟨hx, hy⟩ := (frameAddress_of_pulse hp _ _).1 ha
      rcases hy.lt_or_eq with hmain | rfl
      · exact ⟨x + 1, _, row_column hc hmain hcount (by omega) hx (by omega)⟩
      · have hrun := filler_column hc hcount hH hp (x := 0) (n := x) le_rfl (by omega)
        rw [Nat.zero_add] at hrun
        exact ⟨x + 1, _, hrun⟩

/-- Settles O52: the run from the anchor reaches each address of normal operation and stays on the frame. -/
theorem framePresentsItsAddresses : Obligations.FramePresentsItsAddresses := by
  intro c hc hreg
  have hanchor := frameAnchorIsOnTheFrame c hc hreg
  refine ⟨fun x _ y _ ha => ?_, fun k t hrun => ?_⟩
  · obtain ⟨k, w, hk⟩ := exists_iterate_frameAddress hc hreg ha
    obtain ⟨t, ht, hx, hy, -⟩ := (sound_powerUp hc _ _ _).exists_runs_at (s := frameAnchor c) hk
    exact ⟨k, t, ht, hx, hy⟩
  · have ht : OnFrame t := runs_invariant (fun hstep hs => frameIsClosedUnderTheStep _ _ hs hstep) hrun hanchor
    obtain ⟨-, -, ha, -⟩ := ht
    rwa [(runs_keeps_cfg_rom hrun).1] at ha

end Sys2Proof.Machine

/-! PROOFS. Synchronisation (70_reset_and_hazards.md section 1, rule R115): from any registers a regular machine reaches
the frame. What does not depend on the filler policy comes first: the main rows and the clears. How long the filler rows
take is found policy by policy. -/

namespace Sys2Proof.Machine

/-- The registers reach the frame within `n` edges. -/
def SyncsIn (c : Cfg) (n : Nat) (r : Regs) : Prop := ∃ k ≤ n, FrameRegs c ((Regs.next c)^[k] r)

/-- Registers that reach the frame within fewer edges reach it within more. -/
theorem SyncsIn.mono {c : Cfg} {m n : Nat} {r : Regs} (h : SyncsIn c m r) (hmn : m ≤ n) : SyncsIn c n r := by
  obtain ⟨k, hk, hframe⟩ := h
  exact ⟨k, hk.trans hmn, hframe⟩

/-- Edges on the way to registers that reach the frame are added to their bound. -/
theorem SyncsIn.of_iterate {c : Cfg} {m n : Nat} {r u : Regs} (hm : (Regs.next c)^[m] r = u) (h : SyncsIn c n u) :
    SyncsIn c (m + n) r := by
  obtain ⟨k, hk, hframe⟩ := h
  exact ⟨k + m, by omega, by rwa [Function.iterate_add_apply, hm]⟩

/-- One edge on the way. -/
theorem SyncsIn.of_next {c : Cfg} {n : Nat} {r u : Regs} (hu : Regs.next c r = u) (h : SyncsIn c n u) :
    SyncsIn c (n + 1) r := by
  rw [Nat.add_comm]
  exact SyncsIn.of_iterate (m := 1) hu h

/-- A machine whose registers reach the frame reaches it in as many edges. -/
theorem Sound.exists_runs_onFrame {s : State} (hs : Sound s) (hreg : Regular s.cfg) {n : Nat}
    (h : SyncsIn s.cfg n s.regs) : ∃ k ≤ n, ∃ t, Runs k s t ∧ OnFrame t := by
  obtain ⟨k, hk, hframe⟩ := h
  obtain ⟨t, ht, hregs⟩ := hs.exists_runs_regs k
  obtain ⟨hcfg, hrom⟩ := runs_keeps_cfg_rom ht
  refine ⟨k, hk, t, ht, (onFrame_iff t).2 ?_⟩
  rw [hregs, Sound, hcfg, hrom]
  exact ⟨hs, hreg, hframe⟩

section Sync

variable {c : Cfg} (hc : c.valid = true) (hreg : Regular c)
include hc hreg

/-- An edge of the frame leads onto it. -/
theorem SyncsIn.of_edge {x y : Nat} {w : Byte} {i : Instr} (hw : decodeWord c.layout w = i) (h : FrameEdge c x y i) :
    SyncsIn c 1 ⟨x, y, w⟩ :=
  ⟨1, le_rfl, FrameEdge.next hc hreg (hw ▸ h)⟩

/-! ### Clears -/

/-- A horizontal clear at column 0 of a main row is released there: the next line starts, on the frame (R97). -/
theorem syncsIn_hclr_zero {y : Nat} {w : Byte} (hy : y < c.vbiEnd) (hw : decodeWord c.layout w = .hclr) :
    SyncsIn c 2 ⟨0, y, w⟩ := by
  obtain ⟨hH, hV⟩ := hreg
  have hbit := hresetN_main_zero hc hy
  refine SyncsIn.of_next (next_of_hclr_release hw hbit) ?_
  rw [Nat.mod_eq_of_lt (by omega)]
  exact SyncsIn.of_edge hc ⟨hH, hV⟩ (decodeWord_tableByte_of_hresetN hc hbit)
    (.column (Nat.zero_le _) (by omega))

/-- From the origin with any byte of the table in the latch the frame is two edges away at most. -/
theorem syncsIn_origin (x y : Nat) : SyncsIn c 2 ⟨0, 0, tableByte c x y⟩ := by
  have hzero := (Cfg.facts hc).vbiEnd_pos
  have hcolumn : FrameEdge c 0 0 .count := .column (Nat.zero_le _) (Or.inl hzero)
  cases hop : decodeWord c.layout (tableByte c x y) with
  | count => exact (SyncsIn.of_edge hc hreg hop hcolumn).mono (by decide)
  | hclr => exact syncsIn_hclr_zero hc hreg hzero hop
  | vclr => exact absurd hop (decodeWord_tableByte_ne_vclr hc x y)
  | hvclr =>
    exact SyncsIn.of_next (next_of_hvclr hop)
      (SyncsIn.of_edge hc hreg (decodeWord_tableByte_of_hresetN hc (hresetN_main_zero hc hzero)) hcolumn)

/-- `HVCLR` leads to the origin with a byte of the table in the latch (R95). -/
theorem syncsIn_hvclr (x y : Nat) {w : Byte} (hw : decodeWord c.layout w = .hvclr) : SyncsIn c 3 ⟨x, y, w⟩ :=
  SyncsIn.of_next (next_of_hvclr hw) (syncsIn_origin hc hreg x y)

/-- `HCLR` in a main row: the byte releases the clear, or the next edge, at column 0, does (R93, R97). -/
theorem syncsIn_hclr_main (x : Nat) {y : Nat} {w : Byte} (hy : y < c.vbiEnd) (hw : decodeWord c.layout w = .hclr) :
    SyncsIn c 3 ⟨x, y, w⟩ := by
  cases hbit : (signals c x y).hresetN with
  | true =>
    have hV := hreg.2
    have hedge : FrameEdge c 0 (y + 1) .count := .column (Nat.zero_le _) (by omega)
    refine SyncsIn.of_next (next_of_hclr_release hw hbit) ?_
    rw [Nat.mod_eq_of_lt (by omega)]
    exact (SyncsIn.of_edge hc hreg (decodeWord_tableByte_of_hresetN hc hbit) hedge).mono (by decide)
  | false =>
    have hcol : hresetColumn c x = true := by rwa [hresetN_main hy, Bool.not_eq_false'] at hbit
    exact SyncsIn.of_next (next_of_hclr_hold hw hbit)
      (syncsIn_hclr_zero hc hreg hy (decodeWord_main_hclr hc hy hcol))

/-! ### From anywhere, given how long the filler rows take -/

section Bound

variable {N : Nat} (hN : 3 ≤ N)
  (hfill : ∀ y w, c.vbiEnd < y → y < 256 → decodeWord c.layout w = .count → SyncsIn c N ⟨0, y, w⟩)
include hN hfill

/-- The start of a line with a latch that selects `COUNT`: on the frame's lines one edge, on the others as long as the
filler rows take. -/
theorem syncsIn_line_start {y : Nat} {w : Byte} (hy : y < 256) (hw : decodeWord c.layout w = .count) :
    SyncsIn c N ⟨0, y, w⟩ := by
  rcases Nat.lt_or_ge c.vbiEnd y with hlt | hge
  · exact hfill y w hlt hy hw
  · have hedge : FrameEdge c 0 y .count := .column (Nat.zero_le _) (by omega)
    exact (SyncsIn.of_edge hc hreg hw hedge).mono (by omega)

/-- `HCLR` in a filler row starts the next line where the byte releases it; elsewhere the byte selects `HVCLR` (R93). -/
theorem syncsIn_hclr (x : Nat) {y : Nat} {w : Byte} (hw : decodeWord c.layout w = .hclr) :
    SyncsIn c (N + 1) ⟨x, y, w⟩ := by
  rcases Nat.lt_or_ge y c.vbiEnd with hy | hy
  · exact (syncsIn_hclr_main hc hreg x hy hw).mono (by omega)
  · cases hbit : (signals c x y).hresetN with
    | true =>
      exact SyncsIn.of_next (next_of_hclr_release hw hbit) (syncsIn_line_start hc hreg hN hfill
        (Nat.mod_lt _ (by decide)) (decodeWord_tableByte_of_hresetN hc hbit))
    | false =>
      have hop : decodeWord c.layout (tableByte c x y) = .hvclr := by
        rw [decodeWord_tableByte hc, hbit, (vresetN_eq_false_iff c x y).2 ⟨hy, hbit⟩]
        rfl
      exact (SyncsIn.of_next (next_of_hclr_hold hw hbit) (syncsIn_hvclr hc hreg 0 y hop)).mono (by omega)

/-- Counting from any address of a main row: on the frame at once up to `HBI_END`; beyond, under `EXACT` after the wrap,
under `TAIL` once the tail's clear is in the latch. Only the wrap of the last main row meets a filler row. -/
theorem syncsIn_main_count {x y : Nat} {w : Byte} (hx : x < 256) (hy : y < c.vbiEnd)
    (hw : decodeWord c.layout w = .count) {K : Nat} (hK : 4 ≤ K) (hwrap : c.hbiEnd < x → 257 ≤ K + x)
    (hlast : y + 1 = c.vbiEnd → N + 2 ≤ K) : SyncsIn c K ⟨x, y, w⟩ := by
  have hV := hreg.2
  rcases Nat.lt_or_ge c.hbiEnd x with hbeyond | hcol
  · by_cases he : c.hresetPolicy = .exact
    · have hop (i : Nat) (hi : c.hbiEnd < i) : decodeWord c.layout (tableByte c i y) = .count :=
        decodeWord_main_count hc hy (by rw [hresetColumn_of_exact he, decide_eq_false hi.ne'])
      have hrun := iterate_next_to_wrap hw hx fun i hlo _ => hop i (by omega)
      rw [Nat.mod_eq_of_lt (by omega)] at hrun
      have hedge : FrameEdge c 0 (y + 1) .count := .column (Nat.zero_le _) (by omega)
      have hsync := SyncsIn.of_iterate hrun (SyncsIn.of_edge hc hreg (hop 255 (by omega)) hedge)
      have := hwrap hbeyond
      exact hsync.mono (by omega)
    · have hop : decodeWord c.layout (tableByte c x y) = .hclr :=
        decodeWord_main_hclr hc hy (by rw [hresetColumn_of_ne_exact he, decide_eq_true hbeyond.le])
      rcases Nat.lt_or_ge x 255 with hlt | hge
      · exact (SyncsIn.of_next (next_of_count hw hlt) (syncsIn_hclr_main hc hreg (x + 1) hy hop)).mono hK
      · obtain rfl : x = 255 := by omega
        have hnext := next_of_count_wrap (y := y) hw
        rw [Nat.mod_eq_of_lt (by omega)] at hnext
        rcases (show y + 1 ≤ c.vbiEnd from hy).lt_or_eq with hmain | heq
        · exact (SyncsIn.of_next hnext (syncsIn_hclr_main hc hreg 0 hmain hop)).mono hK
        · exact (SyncsIn.of_next hnext (syncsIn_hclr hc hreg hN hfill 0 hop)).mono (hlast heq)
  · exact (SyncsIn.of_edge hc hreg hw (.column hcol (Or.inl hy))).mono (by omega)

/-- From any registers the frame is reached, within what counting takes in the main rows and in the filler rows. -/
theorem syncsIn_of_fillers {K : Nat} (hK : 257 ≤ K) (hNK : N + 2 ≤ K)
    (hcount : ∀ x y w, x < 256 → c.vbiEnd ≤ y → y < 256 → decodeWord c.layout w = .count → SyncsIn c K ⟨x, y, w⟩)
    {x y : Nat} (w : Byte) (hx : x < 256) (hy : y < 256) : SyncsIn c K ⟨x, y, w⟩ := by
  have hvbp := (Cfg.facts hc).vbp
  have hvsy := (Cfg.facts hc).vsy
  have hfirst := (Cfg.facts hc).vbiEnd_pos
  have hhbp := (Cfg.facts hc).hbp
  cases hw : decodeWord c.layout w with
  | count =>
    rcases Nat.lt_or_ge y c.vbiEnd with hmain | hfiller
    · exact syncsIn_main_count hc hreg hN hfill hx hmain hw (by omega) (fun _ => by omega) (fun _ => hNK)
    · exact hcount x y w hx hfiller hy hw
  | hclr => exact (syncsIn_hclr hc hreg hN hfill x hw).mono (by omega)
  | hvclr => exact (syncsIn_hvclr hc hreg x y hw).mono (by omega)
  | vclr =>
    suffices h : SyncsIn c (K - 1) ⟨(x + 1) % 256, 0, tableByte c x y⟩ from
      (SyncsIn.of_next (next_of_vclr hw) h).mono (by omega)
    cases hop : decodeWord c.layout (tableByte c x y) with
    | count =>
      exact syncsIn_main_count hc hreg hN hfill (Nat.mod_lt _ (by decide)) hfirst hop (by omega)
        (fun _ => by omega) (fun _ => by omega)
    | hclr => exact (syncsIn_hclr_main hc hreg _ hfirst hop).mono (by omega)
    | vclr => exact absurd hop (decodeWord_tableByte_ne_vclr hc x y)
    | hvclr => exact (syncsIn_hvclr hc hreg _ 0 hop).mono (by omega)

end Bound

/-! ### The filler rows under each policy (R76 to R78, R115) -/

/-- Under `SUSTAINED` a filler byte selects `HVCLR`, so counting ends after one edge. -/
theorem syncsIn_filler_sustained (hp : c.fillerPolicy = .sustained) {x y : Nat} {w : Byte} (hx : x < 256)
    (hy : c.vbiEnd ≤ y) (hw : decodeWord c.layout w = .count) : SyncsIn c 4 ⟨x, y, w⟩ := by
  have hop := decodeWord_filler_hvclr hc (x := x) hy (Or.inl hp)
  rcases Nat.lt_or_ge x 255 with hlt | hge
  · exact SyncsIn.of_next (next_of_count hw hlt) (syncsIn_hvclr hc hreg _ _ hop)
  · obtain rfl : x = 255 := by omega
    exact SyncsIn.of_next (next_of_count_wrap hw) (syncsIn_hvclr hc hreg _ _ hop)

omit hc hreg in
/-- Under a pulse policy the filler bytes outside the pulse are all the anchor's, so at the origin each is on the frame
(R116). -/
theorem frameRegs_origin_of_no_pulse (hvbi : 0 < c.vbiEnd) (hp : c.fillerPolicy ≠ .sustained) {x y : Nat}
    (hy : c.vbiEnd ≤ y) (hx : fillerPulse c x y = false) : FrameRegs c ⟨0, 0, tableByte c x y⟩ := by
  refine ⟨frameAddress_main_zero hvbi, (mem_frameLatches_origin c _).2 (Or.inr (Or.inl ⟨hp, ?_⟩))⟩
  rw [tableByte_of_no_pulse hp hy hx, tableByte_of_no_pulse hp le_rfl (by simp [fillerPulse])]

/-- Under `PER_LINE` each filler row clears both counters in its reset column. -/
theorem syncsIn_filler_perLine (hp : c.fillerPolicy = .perLine) {x y : Nat} {w : Byte} (hx : x ≤ c.hbiEnd)
    (hy : c.vbiEnd ≤ y) (hw : decodeWord c.layout w = .count) : SyncsIn c (c.hbiEnd - x + 2) ⟨x, y, w⟩ := by
  have hns : c.fillerPolicy ≠ .sustained := by rw [hp]; decide
  have hrun := filler_column hc hw hreg.1 hns (x := x) (n := c.hbiEnd - x) hy (by omega)
  rw [show x + (c.hbiEnd - x) = c.hbiEnd by omega] at hrun
  have hpulse : decodeWord c.layout (tableByte c c.hbiEnd y) = .hvclr :=
    decodeWord_filler_hvclr hc hy (Or.inr (by simp [fillerPulse_of_perLine hp]))
  refine ⟨c.hbiEnd - x + 1 + 1, le_rfl, ?_⟩
  rw [Function.iterate_succ_apply', hrun, next_of_hvclr hpulse]
  exact frameRegs_origin_of_no_pulse (Cfg.facts hc).vbiEnd_pos hns hy (by simp [fillerPulse_of_perLine hp])

/-- Under `PER_LINE` counting beyond the reset column of a filler row wraps to a line that has one ahead. -/
theorem syncsIn_filler_perLine_count (hp : c.fillerPolicy = .perLine) {x y : Nat} {w : Byte} (hx : x < 256)
    (hy : c.vbiEnd ≤ y) (hw : decodeWord c.layout w = .count) : SyncsIn c 257 ⟨x, y, w⟩ := by
  have hH := hreg.1
  have hhbp := (Cfg.facts hc).hbp
  rcases Nat.lt_or_ge c.hbiEnd x with hlt | hge
  · have hop (i : Nat) (hi : c.hbiEnd < i) : decodeWord c.layout (tableByte c i y) = .count :=
      decodeWord_filler_count hc hy (by rw [hp]; decide) (by rw [fillerPulse_of_perLine hp, decide_eq_false hi.ne'])
    have hrun := iterate_next_to_wrap hw hx fun i hlo _ => hop i (by omega)
    have hstart := syncsIn_line_start hc hreg (N := c.hbiEnd + 2) (by omega)
      (fun y w hy _ hw => syncsIn_filler_perLine hc hreg hp (Nat.zero_le _) hy.le hw)
      (Nat.mod_lt (y + 1) (by decide)) (hop 255 (by omega))
    exact (SyncsIn.of_iterate hrun hstart).mono (by omega)
  · exact (syncsIn_filler_perLine hc hreg hp hge hy hw).mono (by omega)

/-- Under `SINGLE_PULSE` counting from an address behind the pulse goes through the filler rows to the origin. -/
theorem syncsIn_filler_singlePulse (hp : c.fillerPolicy = .singlePulse) {a : Nat} {w : Byte} (ha : a < 65536)
    (hpulse : c.vbiEnd * 256 + c.hbiEnd < a) (hw : decodeWord c.layout w = .count) :
    SyncsIn c (65536 - a) (Regs.ofAddr a w) := by
  have hns : c.fillerPolicy ≠ .sustained := by rw [hp]; decide
  have hno (b : Nat) (hb : a ≤ b) : fillerPulse c (b % 256) (b / 256) = false := by
    rw [fillerPulse_of_singlePulse hp, decide_eq_false (by omega)]
  have hrun := iterate_next_ofAddr (c := c) hw ha (65535 - a) fun i hi => by
    rw [Nat.mod_eq_of_lt (by omega)]
    exact decodeWord_filler_count hc (by omega) hns (hno (a + i) (by omega))
  rw [show 65535 - a + 1 = 65536 - a by omega, show a + (65535 - a) = 65535 by omega] at hrun
  refine ⟨65536 - a, le_rfl, ?_⟩
  rw [hrun]
  exact frameRegs_origin_of_no_pulse (Cfg.facts hc).vbiEnd_pos hns (by omega) (hno 65535 (by omega))

/-- Under `SINGLE_PULSE` counting from any filler address reaches the frame at the latest at the origin. -/
theorem syncsIn_filler_singlePulse_count (hp : c.fillerPolicy = .singlePulse) {x y : Nat} {w : Byte} (hx : x < 256)
    (hy : c.vbiEnd ≤ y) (hy' : y < 256) (hw : decodeWord c.layout w = .count) :
    SyncsIn c (256 * (256 - c.vbiEnd)) ⟨x, y, w⟩ := by
  have hV := hreg.2
  by_cases hcol : y = c.vbiEnd ∧ x ≤ c.hbiEnd
  · have hedge : FrameEdge c x y .count :=
      .column hcol.2 (Or.inr ⟨hcol.1, fun hs => by rw [hp] at hs; cases hs⟩)
    exact (SyncsIn.of_edge hc hreg hw hedge).mono (by omega)
  · have hH := hreg.1
    have haddr : Regs.ofAddr (y * 256 + x) w = ⟨x, y, w⟩ := by
      rw [Regs.ofAddr, Regs.mk.injEq]
      exact ⟨by omega, by omega, rfl⟩
    have hsync := syncsIn_filler_singlePulse hc hreg hp (a := y * 256 + x) (by omega) (by omega) hw
    rw [haddr] at hsync
    exact hsync.mono (by omega)

end Sync

/-- Settles O53: counting through the filler rows takes the most, `256·(256 − VBI_END)` edges, and getting there two
more at most. -/
theorem synchronisesUnderSinglePulse : Obligations.SynchronisesUnderSinglePulse := by
  intro s hs hreg hp
  have hV := hreg.2
  refine hs.exists_runs_onFrame hreg ?_
  have hcount (x y : Nat) (w : Byte) (hx : x < 256) (hy : s.cfg.vbiEnd ≤ y) (hy' : y < 256)
      (hw : decodeWord s.cfg.layout w = .count) := syncsIn_filler_singlePulse_count hs.1 hreg hp hx hy hy' hw
  exact syncsIn_of_fillers hs.1 hreg (N := 256 * (256 - s.cfg.vbiEnd)) (by omega)
    (fun y w hy hy' hw => hcount 0 y w (by decide) hy.le hy' hw) (by omega) (by omega)
    (fun x y w hx hy hy' hw => (hcount x y w hx hy hy' hw).mono (by omega)) s.l s.h.isLt s.v.isLt

/-- Settles O54: a filler row clears the counters at most `HBI_END + 2` edges after its start, and getting there takes
two more at most. -/
theorem synchronisesUnderPerLine : Obligations.SynchronisesUnderPerLine := by
  intro s hs hreg hp
  have hH := hreg.1
  have hhbp := (Cfg.facts hs.1).hbp
  refine hs.exists_runs_onFrame hreg ?_
  exact syncsIn_of_fillers hs.1 hreg (N := s.cfg.hbiEnd + 2) (by omega)
    (fun y w hy _ hw => syncsIn_filler_perLine hs.1 hreg hp (Nat.zero_le _) hy.le hw) (by omega) (by omega)
    (fun x y w hx hy _ hw => (syncsIn_filler_perLine_count hs.1 hreg hp hx hy hw).mono (by omega)) s.l s.h.isLt
    s.v.isLt

/-- Settles O55: the filler rows take four edges at most; counting to the wrap of a main row takes the most. -/
theorem synchronisesUnderSustained : Obligations.SynchronisesUnderSustained := by
  intro s hs hreg hp
  refine hs.exists_runs_onFrame hreg ?_
  exact syncsIn_of_fillers hs.1 hreg (N := 4) (by decide)
    (fun y w hy _ hw => syncsIn_filler_sustained hs.1 hreg hp (by decide) hy.le hw) (by decide) (by decide)
    (fun x y w hx hy _ hw => (syncsIn_filler_sustained hs.1 hreg hp hx hy hw).mono (by decide)) s.l s.h.isLt s.v.isLt

end Sys2Proof.Machine
